-- ==== Sys2Proof/Word.lean ====
section
/-! DEFINITION. The word types of the block: bytes, integers without wrap, and exact real quantities
(`00_scope.md` R5, R6). -/

namespace Sys2Proof

/-- A byte: an unsigned integer in [0, 255], bit 7 most significant (R5). -/
abbrev Byte := BitVec 8

/-- A real-valued quantity, an exact rational; there is no NaN and no infinity (R6). -/
abbrev Num := Rat

/-- A `Num` that stands for a raw code or a mean of raw codes; every sample is a `Code` (R6, C1). -/
abbrev Code := Rat

end Sys2Proof
end

