-- ==== Sys2Proof/Config.lean ====
section
/-! DEFINITION. The implementation parameters of `00_scope.md` R4: the names they range over, the constraints
R4 and R12 put on them, and the value each has on this hardware. The parameters are fixed for a run and are not
state (R21). The operations of Machine/Ops.lean take a parameter as an argument, so that the laws of the spec can
be stated for every value of it; the meanings give it the value named here. -/

namespace Sys2Proof

/-- The named fields of the configuration registers, in the order of their ids 0 to 15 (R13). -/
inductive FieldId where
  | mux | gain | pgaBypass
  | dr | mode | cm | ts | bcs
  | vref | fir | psw | idac
  | i1mux | i2mux | drdym | rsvd
  deriving DecidableEq, Repr

/-- The CommandOpcode set, in the order of its ids 0 to 5 (R56). -/
inductive OpcodeId where
  | reset | shutdown | start | readData | readReg | writeReg
  deriving DecidableEq, Repr

/-- Ids 4 and 5 are register-access opcodes, ids 0 to 3 are non-addressed (R56). -/
def OpcodeId.registerAccess : OpcodeId → Bool
  | .readReg | .writeReg => true
  | .reset | .shutdown | .start | .readData => false

/-- The units of the scale table, in the order of their codes 0 to 3 (R57). -/
inductive MassUnit where
  | kg | g | mg | ug
  deriving DecidableEq, Repr

/-- One row of `FIELD_TABLE`: the register a field lives in, its least significant bit and its width (R12). -/
structure FieldSlot where
  reg   : Fin 4
  lsb   : Nat
  width : Nat
  deriving DecidableEq, Repr

/-- `width >= 1` and `lsb + width <= 8` (R12). -/
abbrev FieldSlot.Fits (sl : FieldSlot) : Prop := 1 ≤ sl.width ∧ sl.lsb + sl.width ≤ 8

/-- Bit `i` of register `a` belongs to the field (R12). -/
abbrev FieldSlot.Holds (sl : FieldSlot) (a : Fin 4) (i : Nat) : Prop :=
  sl.reg = a ∧ sl.lsb ≤ i ∧ i < sl.lsb + sl.width

/-- The field partition invariant (R12): every row fits its register, and every bit of every register lies in
exactly one field. -/
abbrev Partitions {F : Type} (table : F → FieldSlot) : Prop :=
  (∀ f, (table f).Fits) ∧
    ∀ (a : Fin 4) (i : Fin 8), ∃ f, (table f).Holds a i ∧ ∀ g, (table g).Holds a i → g = f

/-- The constraints R4 puts on the six opcode bytes: the low nibble of the two register-access bytes is free, the
six are pairwise distinct, and neither register-access byte shares its high nibble with another opcode byte. -/
abbrev OpcodeBytesAdmissible (byteOf : OpcodeId → Byte) : Prop :=
  (∀ o, o.registerAccess = true → byteOf o &&& 0x0F = 0) ∧
  (∀ o p, byteOf o = byteOf p → o = p) ∧
  (∀ o p, o.registerAccess = true → byteOf p &&& 0xF0 = byteOf o &&& 0xF0 → p = o)

namespace Config

/-- `OPC_*` (R4, R46, R47). PRESUMED: the values are general knowledge of the converter, log entry 5. -/
def opcodeByte : OpcodeId → Byte
  | .reset    => 0x06
  | .shutdown => 0x02
  | .start    => 0x08
  | .readData => 0x10
  | .readReg  => 0x20
  | .writeReg => 0x40

/-- `FIELD_TABLE` (R13). PRESUMED: every position, and every width but the three the source gives, is general
knowledge of the converter, log entry 6. -/
def fieldTable : FieldId → FieldSlot
  | .mux       => ⟨0, 4, 4⟩
  | .gain      => ⟨0, 1, 3⟩
  | .pgaBypass => ⟨0, 0, 1⟩
  | .dr        => ⟨1, 5, 3⟩
  | .mode      => ⟨1, 3, 2⟩
  | .cm        => ⟨1, 2, 1⟩
  | .ts        => ⟨1, 1, 1⟩
  | .bcs       => ⟨1, 0, 1⟩
  | .vref      => ⟨2, 6, 2⟩
  | .fir       => ⟨2, 4, 2⟩
  | .psw       => ⟨2, 3, 1⟩
  | .idac      => ⟨2, 0, 3⟩
  | .i1mux     => ⟨3, 5, 3⟩
  | .i2mux     => ⟨3, 2, 3⟩
  | .drdym     => ⟨3, 1, 1⟩
  | .rsvd      => ⟨3, 0, 1⟩

/-- `REG_RESET[a]` (R4, R22). PRESUMED: general knowledge of the converter, log entry 7. -/
def regReset : Fin 4 → Byte := fun _ => 0x00

/-- `rnd`, applied after every real-number operation (R6, R125). Its value on this hardware is the identity
(R4, D11). DESIGN CHOICE: log entry 8. -/
def rnd (x : Num) : Num := x

/-- `SCALE`: the unit scale table to kilograms (R126). -/
def scale : MassUnit → Num
  | .kg => 1
  | .g  => 1 / 1000
  | .mg => 1 / 1000000
  | .ug => 1 / 1000000000

/-- `WIDTHS`: the admitted sample widths (R4). -/
def widths : List Int := [16, 24]

/-- `GAINS`: the admitted gain values of code to voltage (R4, D20). -/
def gains : List Int := [1, 2, 4, 8, 16, 32, 64, 128]

/-- `WAITREADY_BUDGET` (R4, R155, D23): open, and used by no rule of the block; log entry 12. -/
opaque waitReadyBudget : Nat

end Config

end Sys2Proof
end

