-- ==== Sys2Proof/Syntax.lean ====
section
/-! DEFINITION. The instructions: one constructor per row of spec/opcode_table.json (six wire commands,
`41_command_bytes.md` R83 to R88, and seventeen host operations, `30_encoding.md` R55), and the form in which one
reaches the block's boundary (a command byte, R46 and R47, or a host request, R52). -/

namespace Sys2Proof

/-- An instruction. The operands of a host operation have the types R55 gives them; a wire command of format
CMD-A carries the start address and the count its byte names (R47). -/
inductive Instr where
  /-- RESET (R83). -/
  | cmdReset
  /-- SHUTDOWN (R84). -/
  | cmdShutdown
  /-- START, the source's SYNC/START (R85). -/
  | cmdStart
  /-- READ_DATA (R86). -/
  | cmdReadData
  /-- READ_REG start, count (R87). -/
  | cmdReadReg (start count : Nat)
  /-- WRITE_REG start, count (R88). -/
  | cmdWriteReg (start count : Nat)
  /-- ENCF reg, f, v (R68). -/
  | encf (reg : Byte) (f : FieldId) (v : Int)
  /-- DECF reg, f (R69). -/
  | decf (reg : Byte) (f : FieldId)
  /-- SETF f, v (R70). -/
  | setf (f : FieldId) (v : Int)
  /-- GETF f (R71). -/
  | getf (f : FieldId)
  /-- BCMD opc, start, count (R82). -/
  | bcmd (opc : OpcodeId) (start count : Int)
  /-- DSMP bytes, W (R102). -/
  | dsmp (bytes : List Byte) (w : Int)
  /-- DSMPB bits, W (R103). -/
  | dsmpb (bits : List Bool) (w : Int)
  /-- EPAY start, count (R104). -/
  | epay (start count : Int)
  /-- LPAY start, count, bytes (R105). -/
  | lpay (start count : Int) (bytes : List Byte)
  /-- ACLR (R115). -/
  | aclr
  /-- AADD s (R116). -/
  | aadd (s : Int)
  /-- AMEAN (R117). -/
  | amean
  /-- RZERO raw (R131). -/
  | rzero (raw : Code)
  /-- RSPAN raw, m, u (R132). -/
  | rspan (raw : Code) (m : Num) (u : MassUnit)
  /-- CTARE raw (R133). -/
  | ctare (raw : Code)
  /-- TMASS raw (R134). -/
  | tmass (raw : Code)
  /-- TVOLT raw, bits, vref, gain (R135). -/
  | tvolt (raw : Code) (bits : Int) (vref : Num) (gain : Int)
  deriving DecidableEq, Repr

/-- A wire command goes to the converter; every other instruction is a host operation (R9, glossary). -/
def Instr.isWire : Instr → Bool
  | .cmdReset | .cmdShutdown | .cmdStart | .cmdReadData | .cmdReadReg _ _ | .cmdWriteReg _ _ => true
  | .encf _ _ _ | .decf _ _ | .setf _ _ | .getf _ | .bcmd _ _ _ | .dsmp _ _ | .dsmpb _ _ | .epay _ _
  | .lpay _ _ _ | .aclr | .aadd _ | .amean | .rzero _ | .rspan _ _ _ | .ctare _ | .tmass _
  | .tvolt _ _ _ _ => false

/-- One operand of a host request as it crosses the boundary (R52): an integer (a byte, an id, a code or a count),
a real quantity, or a list of byte or bit values. The spec gives a request no binary form, log entry 2. -/
inductive Operand where
  | int (z : Int)
  | num (q : Num)
  | ints (l : List Int)
  deriving DecidableEq, Repr

/-- An encoded instruction: a byte of the wire command space, or a host request, that is an operation selector
with its operands (R45, R52). The two spaces use the same byte values for different things, log entry 1. -/
inductive Encoded where
  | command (c : Byte)
  | request (opsel : Byte) (operands : List Operand)
  deriving DecidableEq, Repr

/-- What the host can do to the block: present an instruction, or raise the reset event (R8, R175). -/
inductive HostInput where
  | present (e : Encoded)
  | resetEvent
  deriving DecidableEq, Repr

/-- Why an encoded instruction spells no operation (R58, R59, U1, U2): each is refused. -/
inductive DecodeError where
  /-- One of the 220 command bytes the block cannot produce (R58, R59 (a)). -/
  | unassignedCommand (c : Byte)
  /-- Selectors 0x11 to 0xFF (R59 (b)). -/
  | unassignedSelector (opsel : Byte)
  /-- A number or kind of operands that the selected operation does not have (U1). -/
  | operandShape (opsel : Byte)
  /-- A byte outside [0, 255] (U1). -/
  | notAByte (z : Int)
  /-- A bit that is neither 0 nor 1 (U1). -/
  | notABit (z : Int)
  /-- A field id not in the field table (R59 (b)). -/
  | unknownField (z : Int)
  /-- An opcode id above 5 (R59 (b)). -/
  | unknownOpcode (z : Int)
  /-- A unit code above 3 (R59 (b)). -/
  | unknownUnit (z : Int)
  deriving DecidableEq, Repr

end Sys2Proof
end

