-- ==== Sys2Proof/WellFormed.lean ====
section
/-! DEFINITION. Which instructions an encoding can spell. Every operand of a host operation has the type R55 gives
it, so its values outside the operation's domain are legal requests (they end in an error response, R150); what
remains to check is the two-bit fields of a CMD-A byte (R47). -/

namespace Sys2Proof

/-- `rr` in [0,3] names the first register (R47). -/
def startFits (start : Nat) : Bool := decide (start ≤ 3)

/-- `nn` in [0,3] stands for a count of 1 to 4 registers (R47). -/
def countFits (count : Nat) : Bool := decide (1 ≤ count) && decide (count ≤ 4)

/-- The instruction is one an encoding can spell. -/
def Instr.wf : Instr → Bool
  | .cmdReadReg start count | .cmdWriteReg start count => startFits start && countFits count
  | .cmdReset | .cmdShutdown | .cmdStart | .cmdReadData => true
  | .encf _ _ _ | .decf _ _ | .setf _ _ | .getf _ | .bcmd _ _ _ | .dsmp _ _ | .dsmpb _ _ | .epay _ _
  | .lpay _ _ _ | .aclr | .aadd _ | .amean | .rzero _ | .rspan _ _ _ | .ctare _ | .tmass _
  | .tvolt _ _ _ _ => true

end Sys2Proof
end

