-- ==== Sys2Proof/Decode.lean ====
section
/-! DEFINITION. Decoding an encoded instruction, total and rejecting by name (`30_encoding.md` R52 to R59), and,
after it, the encoder written from the same tables. -/

namespace Sys2Proof

/-! ### Operands of a host request (R52, R55 to R57) -/

/-- A `Byte` operand: [0, 255] (R5, U1). -/
def byteOperand (z : Int) : Except DecodeError Byte :=
  if 0 ≤ z ∧ z ≤ 255 then .ok (BitVec.ofNat 8 z.toNat) else .error (.notAByte z)

/-- A bit operand: 0 or 1 (R103, U1). -/
def bitOperand (z : Int) : Except DecodeError Bool :=
  if z = 0 then .ok false else if z = 1 then .ok true else .error (.notABit z)

/-- A list operand, each element read by `one` in order. -/
def listOperand {α : Type} (one : Int → Except DecodeError α) : List Int → Except DecodeError (List α)
  | [] => .ok []
  | z :: l =>
    match one z, listOperand one l with
    | .ok a, .ok as => .ok (a :: as)
    | .error e, _ => .error e
    | .ok _, .error e => .error e

/-- The field with a given id (R13, R56). -/
def fieldWithId : Nat → Option FieldId
  | 0 => some .mux
  | 1 => some .gain
  | 2 => some .pgaBypass
  | 3 => some .dr
  | 4 => some .mode
  | 5 => some .cm
  | 6 => some .ts
  | 7 => some .bcs
  | 8 => some .vref
  | 9 => some .fir
  | 10 => some .psw
  | 11 => some .idac
  | 12 => some .i1mux
  | 13 => some .i2mux
  | 14 => some .drdym
  | 15 => some .rsvd
  | _ => none

/-- The opcode with a given id (R56). -/
def opcodeWithId : Nat → Option OpcodeId
  | 0 => some .reset
  | 1 => some .shutdown
  | 2 => some .start
  | 3 => some .readData
  | 4 => some .readReg
  | 5 => some .writeReg
  | _ => none

/-- The unit with a given code (R57). -/
def unitWithCode : Nat → Option MassUnit
  | 0 => some .kg
  | 1 => some .g
  | 2 => some .mg
  | 3 => some .ug
  | _ => none

/-- An enumerated operand: a non-negative number that `table` names, else the rejection `bad` (R59 (b)). -/
def enumOperand {α : Type} (table : Nat → Option α) (bad : Int → DecodeError) (z : Int) : Except DecodeError α :=
  match z, table z.toNat with
  | .ofNat _, some a => .ok a
  | z, _ => .error (bad z)

def fieldOperand : Int → Except DecodeError FieldId := enumOperand fieldWithId .unknownField
def opcodeOperand : Int → Except DecodeError OpcodeId := enumOperand opcodeWithId .unknownOpcode
def unitOperand : Int → Except DecodeError MassUnit := enumOperand unitWithCode .unknownUnit

/-! ### Host requests (R55) -/

/-- Decode a host request: the selector names the operation, whose operand list must have the shape R55 gives it;
selectors 0x11 to 0xFF spell no operation (R59 (b)). -/
def decodeRequest (opsel : Byte) (operands : List Operand) : Except DecodeError Instr :=
  match opsel.toNat with
  | 0x00 =>
    match operands with
    | [.int reg, .int f, .int v] => do return .encf (← byteOperand reg) (← fieldOperand f) v
    | _ => .error (.operandShape opsel)
  | 0x01 =>
    match operands with
    | [.int reg, .int f] => do return .decf (← byteOperand reg) (← fieldOperand f)
    | _ => .error (.operandShape opsel)
  | 0x02 =>
    match operands with
    | [.int f, .int v] => do return .setf (← fieldOperand f) v
    | _ => .error (.operandShape opsel)
  | 0x03 =>
    match operands with
    | [.int f] => do return .getf (← fieldOperand f)
    | _ => .error (.operandShape opsel)
  | 0x04 =>
    match operands with
    | [.int opc, .int start, .int count] => do return .bcmd (← opcodeOperand opc) start count
    | _ => .error (.operandShape opsel)
  | 0x05 =>
    match operands with
    | [.ints bytes, .int w] => do return .dsmp (← listOperand byteOperand bytes) w
    | _ => .error (.operandShape opsel)
  | 0x06 =>
    match operands with
    | [.ints bits, .int w] => do return .dsmpb (← listOperand bitOperand bits) w
    | _ => .error (.operandShape opsel)
  | 0x07 =>
    match operands with
    | [.int start, .int count] => .ok (.epay start count)
    | _ => .error (.operandShape opsel)
  | 0x08 =>
    match operands with
    | [.int start, .int count, .ints bytes] => do return .lpay start count (← listOperand byteOperand bytes)
    | _ => .error (.operandShape opsel)
  | 0x09 =>
    match operands with
    | [] => .ok .aclr
    | _ => .error (.operandShape opsel)
  | 0x0A =>
    match operands with
    | [.int s] => .ok (.aadd s)
    | _ => .error (.operandShape opsel)
  | 0x0B =>
    match operands with
    | [] => .ok .amean
    | _ => .error (.operandShape opsel)
  | 0x0C =>
    match operands with
    | [.num raw] => .ok (.rzero raw)
    | _ => .error (.operandShape opsel)
  | 0x0D =>
    match operands with
    | [.num raw, .num m, .int u] => do return .rspan raw m (← unitOperand u)
    | _ => .error (.operandShape opsel)
  | 0x0E =>
    match operands with
    | [.num raw] => .ok (.ctare raw)
    | _ => .error (.operandShape opsel)
  | 0x0F =>
    match operands with
    | [.num raw] => .ok (.tmass raw)
    | _ => .error (.operandShape opsel)
  | 0x10 =>
    match operands with
    | [.num raw, .int bits, .num vref, .int gain] => .ok (.tvolt raw bits vref gain)
    | _ => .error (.operandShape opsel)
  | _ => .error (.unassignedSelector opsel)

/-! ### Command bytes (R46, R47, R53, R58) -/

/-- Bits 3:2 of a CMD-A byte: the start address (R47, R53). -/
def startOfCommand (c : Byte) : Nat := (c.extractLsb' 2 2).toNat

/-- Bits 1:0 of a CMD-A byte, plus one: the count (R47, R53). -/
def countOfCommand (c : Byte) : Nat := (c.extractLsb' 0 2).toNat + 1

/-- Classify a command byte, for any values of the opcode parameters (R58): the non-addressed commands on all eight
bits, the register-access commands on the high nibble. -/
def decodeCommandWith (byteOf : OpcodeId → Byte) (c : Byte) : Except DecodeError Instr :=
  if c = byteOf .reset then .ok .cmdReset
  else if c = byteOf .shutdown then .ok .cmdShutdown
  else if c = byteOf .start then .ok .cmdStart
  else if c = byteOf .readData then .ok .cmdReadData
  else if c &&& 0xF0 = byteOf .readReg then .ok (.cmdReadReg (startOfCommand c) (countOfCommand c))
  else if c &&& 0xF0 = byteOf .writeReg then .ok (.cmdWriteReg (startOfCommand c) (countOfCommand c))
  else .error (.unassignedCommand c)

/-- Classify a command byte of this hardware (R58). -/
def decodeCommand (c : Byte) : Except DecodeError Instr := decodeCommandWith Config.opcodeByte c

/-- The decoder. -/
def decode : Encoded → Except DecodeError Instr
  | .command c => decodeCommand c
  | .request opsel operands => decodeRequest opsel operands

/-! ### The encoder -/

/-- The CMD-A byte: opcode in the high bits with `((start << 2) & 0x0C) | ((count - 1) & 0x03)` (R47, R53). -/
def addressedByte (op : Byte) (start count : Int) : Byte :=
  (op &&& 0xF0) ||| ((BitVec.ofInt 8 start <<< 2) &&& 0x0C) ||| (BitVec.ofInt 8 (count - 1) &&& 0x03)

/-- The id of a field (R13). -/
def FieldId.id : FieldId → Int
  | .mux => 0
  | .gain => 1
  | .pgaBypass => 2
  | .dr => 3
  | .mode => 4
  | .cm => 5
  | .ts => 6
  | .bcs => 7
  | .vref => 8
  | .fir => 9
  | .psw => 10
  | .idac => 11
  | .i1mux => 12
  | .i2mux => 13
  | .drdym => 14
  | .rsvd => 15

/-- The id of an opcode (R56). -/
def OpcodeId.id : OpcodeId → Int
  | .reset => 0
  | .shutdown => 1
  | .start => 2
  | .readData => 3
  | .readReg => 4
  | .writeReg => 5

/-- The code of a unit (R57). -/
def MassUnit.code : MassUnit → Int
  | .kg => 0
  | .g => 1
  | .mg => 2
  | .ug => 3

def byteValue (b : Byte) : Operand := .int b.toNat
def byteValues (l : List Byte) : Operand := .ints (l.map fun b => (b.toNat : Int))
def bitValues (l : List Bool) : Operand := .ints (l.map fun b => (b.toNat : Int))

/-- The encoded form of an instruction (R46, R47, R55 to R57). -/
def encode : Instr → Encoded
  | .cmdReset => .command (Config.opcodeByte .reset)
  | .cmdShutdown => .command (Config.opcodeByte .shutdown)
  | .cmdStart => .command (Config.opcodeByte .start)
  | .cmdReadData => .command (Config.opcodeByte .readData)
  | .cmdReadReg start count => .command (addressedByte (Config.opcodeByte .readReg) start count)
  | .cmdWriteReg start count => .command (addressedByte (Config.opcodeByte .writeReg) start count)
  | .encf reg f v => .request 0x00 [byteValue reg, .int f.id, .int v]
  | .decf reg f => .request 0x01 [byteValue reg, .int f.id]
  | .setf f v => .request 0x02 [.int f.id, .int v]
  | .getf f => .request 0x03 [.int f.id]
  | .bcmd opc start count => .request 0x04 [.int opc.id, .int start, .int count]
  | .dsmp bytes w => .request 0x05 [byteValues bytes, .int w]
  | .dsmpb bits w => .request 0x06 [bitValues bits, .int w]
  | .epay start count => .request 0x07 [.int start, .int count]
  | .lpay start count bytes => .request 0x08 [.int start, .int count, byteValues bytes]
  | .aclr => .request 0x09 []
  | .aadd s => .request 0x0A [.int s]
  | .amean => .request 0x0B []
  | .rzero raw => .request 0x0C [.num raw]
  | .rspan raw m u => .request 0x0D [.num raw, .num m, .int u.code]
  | .ctare raw => .request 0x0E [.num raw]
  | .tmass raw => .request 0x0F [.num raw]
  | .tvolt raw bits vref gain => .request 0x10 [.num raw, .int bits, .num vref, .int gain]

/-! ### The opcode table's words

A row of spec/opcode_table.json is one byte and gives an operand no bits, so a table word is a selector with every
operand zero (the number 0, the empty list), or a command byte. Log entry 1: the table numbers two spaces, and four
byte values (0x02, 0x06, 0x08, 0x10) stand in both; as a table word such a value is read as the host request. -/

/-- The operands of a selector, all zero. -/
def zeroOperands (opsel : Byte) : List Operand :=
  match opsel.toNat with
  | 0x00 => [.int 0, .int 0, .int 0]
  | 0x01 => [.int 0, .int 0]
  | 0x02 => [.int 0, .int 0]
  | 0x03 => [.int 0]
  | 0x04 => [.int 0, .int 0, .int 0]
  | 0x05 => [.ints [], .int 0]
  | 0x06 => [.ints [], .int 0]
  | 0x07 => [.int 0, .int 0]
  | 0x08 => [.int 0, .int 0, .ints []]
  | 0x0A => [.int 0]
  | 0x0C => [.num 0]
  | 0x0D => [.num 0, .num 0, .int 0]
  | 0x0E => [.num 0]
  | 0x0F => [.num 0]
  | 0x10 => [.num 0, .int 0, .num 0, .int 0]
  | _ => []

/-- The encoded instruction a table word stands for; a word of another length than one byte spells nothing. -/
def encodedOfTableWord (nbits w : Nat) : Encoded :=
  if nbits = 8 ∧ w < 256 then
    if w ≤ 0x10 then .request (BitVec.ofNat 8 w) (zeroOperands (BitVec.ofNat 8 w)) else .command (BitVec.ofNat 8 w)
  else .request 0xFF []

/-- The instruction the decoder reads from a table word. -/
def decodeTableWord (nbits w : Nat) : Option Instr :=
  match decode (encodedOfTableWord nbits w) with
  | .ok i => some i
  | .error _ => none

end Sys2Proof
end

