-- ==== Sys2Proof/Machine/State.lean ====
section
/-! DEFINITION. The state of the block (`10_state.md` R10) and of its boundary (`00_scope.md` R8), the reasons a
step can stop, and the state after reset (R22). -/

namespace Sys2Proof.Machine

/-- The seven error kinds (`60_exceptions.md` R150). -/
inductive ErrorKind where
  | outOfRange | invalidAddress | frameTooShort | busTimeout | protocolError
  | calibrationIncomplete | divisionByZero
  deriving DecidableEq, Repr

/-- The result of an operation that succeeds; the kind of each is in R55's table. -/
inductive Result where
  | none
  | byte (b : Byte)
  | int (z : Int)
  | bytes (l : List Byte)
  | num (q : Num)
  deriving DecidableEq, Repr

/-- The response to a request: `Ok(result)` or `Err(kind)` (R8). -/
inductive Response where
  | ok (r : Result)
  | err (k : ErrorKind)
  deriving DecidableEq, Repr

/-- What follows a command byte on the wire (`30_encoding.md` R50). -/
inductive Follows where
  /-- RESET, SHUTDOWN and START are followed by nothing. -/
  | nothing
  /-- WRITE_REG is followed by the payload bytes, written to the converter. -/
  | payloadToChip (payload : List Byte)
  /-- READ_REG is followed by `n` bytes read from the converter, in ascending address order. -/
  | registersFromChip (n : Nat)
  /-- READ_DATA is followed by the W/8 bytes of a sample frame read from the converter. -/
  | sampleFromChip
  deriving DecidableEq, Repr

/-- A command byte on its way to the converter, with what follows it. -/
structure WireFrame where
  command : Byte
  follows : Follows
  deriving DecidableEq, Repr

/-- The four shadow configuration registers, 8 bits each (R11). -/
structure Regs where
  r0 : Byte
  r1 : Byte
  r2 : Byte
  r3 : Byte
  deriving DecidableEq, Repr

/-- The state of the block: exactly the elements of R10. -/
structure Block where
  /-- `R[0]` to `R[3]`, the shadow configuration registers. -/
  regs : Regs
  /-- `S.zero_code`, the no-load reading. -/
  zeroCode : Code
  /-- `S.zero_valid`: a zero code has been recorded since reset. -/
  zeroValid : Bool
  /-- `S.span_code`, the reading under the known calibration mass. -/
  spanCode : Code
  /-- `S.span_valid`: a span code has been recorded since reset. -/
  spanValid : Bool
  /-- `S.cal_mass_kg`, the known calibration mass, in kilograms. -/
  calMassKg : Num
  /-- `S.cal_unit`, the unit the calibration mass was given in. -/
  calUnit : MassUnit
  /-- `S.tare_kg`, the tare mass, in kilograms. -/
  tareKg : Num
  /-- `S.acc_sum`, the sum of the samples accumulated since the last ACLR. -/
  accSum : Int
  /-- `S.acc_n`, the number of samples accumulated since the last ACLR. -/
  accN : Nat
  deriving DecidableEq, Repr

/-- The block and its boundary. Only `block` is state of the hardware (R10); the other fields are the model's own
record of what crosses the boundary (log entries 3 and 4): what the host is still to present, the latest response
given to the host, the latest command byte handed to the wire. -/
structure State where
  block : Block
  /-- What the host presents, in order, the next first (R38, D2). -/
  pending : List HostInput
  /-- The response to the latest request; nothing before the first one. -/
  response : Option Response
  /-- The latest wire command; nothing before the first one. -/
  wire : Option WireFrame
  deriving DecidableEq, Repr

/-- Why the machine stops with a fault. The spec has no such stop: an error is a response, and every accepted
request ends with one (R161, R188). -/
inductive Fault where
  /-- Raised by `memRead` and `memWrite` for an address above 3, which names no register (R7: defined only when
  `addr + n <= NREG`). The range checks of EPAY and LPAY stand before every access, so no instruction raises it.
  Safe: the model stops. -/
  | noRegister (addr : Nat)
  deriving DecidableEq, Repr

/-- Why an input is refused: the spec gives it no meaning and a model has no step for it
(`93_implementation_defined.md` part 2). -/
inductive Refusal where
  /-- Raised by an arm of `exec` whose instruction has no meaning in this model. Safe: the model stops. -/
  | notModelled (mnemonic : String)
  /-- Raised by `step` for an encoded instruction that spells no operation (R59, U1, U2). Safe: the model stops. -/
  | noOperation (e : DecodeError)
  /-- Raised by DSMP and DSMPB for more bytes or bits than the width needs (R100, U4, D9). Safe: the model stops. -/
  | overlongFrame
  /-- Raised by LPAY for more bytes than `count` (R105, U4, D9). Safe: the model stops. -/
  | overlongPayload
  deriving DecidableEq, Repr

/-- The three outcomes of one step of this machine. -/
abbrev StepResult := Host.Outcome State Fault Refusal

/-- What an operation's checks come to: a value, an error to respond with, or an input without a meaning. -/
inductive Answer (α : Type) where
  | ok (a : α)
  | raise (k : ErrorKind)
  | noMeaning (r : Refusal)
  deriving DecidableEq, Repr

/-- What the block takes from its boundary at a step. -/
inductive Fetched where
  /-- The host presents nothing. -/
  | idle
  /-- The host raises the reset event; the state has it taken off. -/
  | resetEvent (s : State)
  /-- An instruction to run, in the state with it taken off. -/
  | run (i : Instr) (s : State)
  /-- An encoded instruction that spells no operation. -/
  | reject (e : DecodeError)
  deriving DecidableEq, Repr

/-- The registers after reset: `REG_RESET` (R22). -/
def Regs.reset : Regs :=
  ⟨Config.regReset 0, Config.regReset 1, Config.regReset 2, Config.regReset 3⟩

/-- The block after the reset event (R22). The two codes, the mass and the unit are unspecified there and unreadable
while their flag is false; DESIGN CHOICE: 0, 0, 0 and kg, log entry 9. -/
def Block.reset : Block where
  regs := Regs.reset
  zeroCode := 0
  zeroValid := false
  spanCode := 0
  spanValid := false
  calMassKg := 0
  calUnit := .kg
  tareKg := 0
  accSum := 0
  accN := 0

/-- The machine right after reset: the host has presented nothing, and nothing has crossed the boundary. -/
def State.reset : State where
  block := Block.reset
  pending := []
  response := none
  wire := none

end Sys2Proof.Machine
end

