-- ==== Sys2Proof/Machine/Flags.lean ====
section
/-! DEFINITION. The block's two flags (`10_state.md` R17) and the two guards that read the calibration
(`44_calibration.md` R129, R130). -/

namespace Sys2Proof.Machine

/-- RZERO sets `S.zero_valid` (R17). -/
def Block.setZeroValid (b : Block) : Block := { b with zeroValid := true }

/-- RSPAN sets `S.span_valid` (R17). -/
def Block.setSpanValid (b : Block) : Block := { b with spanValid := true }

/-- Both points of the calibration have been recorded since reset (R129). -/
def Block.calibrationComplete (b : Block) : Bool := b.zeroValid && b.spanValid

/-- The checks TMASS and CTARE make before a conversion, in R159's order: the completeness check (R129), then the
division guard, an exact comparison of the two stored codes (R130). -/
def Block.conversionGuard (b : Block) : Except ErrorKind Unit :=
  if b.calibrationComplete = false then .error .calibrationIncomplete
  else if b.spanCode = b.zeroCode then .error .divisionByZero
  else .ok ()

end Sys2Proof.Machine
end

