-- ==== Sys2Proof/Machine/Operands.lean ====
section
/-! DEFINITION. The operand ranges of the operations (`20_memory.md` R33, R34; `60_exceptions.md` R152, R153). A
value outside its range is an error, never clamped, masked or wrapped into it. -/

namespace Sys2Proof.Machine

/-- `v` fits a field of `width` bits; a negative value fits none (R65, D29). -/
def fitsWidth (width : Nat) (v : Int) : Bool := decide (0 ≤ v) && decide (v < 2 ^ width)

/-- `start` in [0,3] and `count` in [1,4], in this order (R33, R80, R159). -/
def checkAddressPair (start count : Int) : Except ErrorKind Unit :=
  if start < 0 ∨ start > 3 then .error .invalidAddress
  else if count < 1 ∨ count > 4 then .error .invalidAddress
  else .ok ()

/-- The address pair of a burst that must name actual registers: it may not run past register 3, and it does not
wrap (R34, R104, D8). -/
def checkBurst (start count : Int) : Except ErrorKind Unit :=
  match checkAddressPair start count with
  | .error k => .error k
  | .ok () => if start + count > 4 then .error .invalidAddress else .ok ()

/-- `W` and `bits` are 16 or 24 (R100, R135). -/
def admittedWidth (w : Int) : Bool := decide (w ∈ Config.widths)

/-- `gain` is one of 1, 2, 4, ..., 128 (R135). -/
def admittedGain (gain : Int) : Bool := decide (gain ∈ Config.gains)

/-- `s` is a 24-bit signed value (R116). -/
def sampleInRange (s : Int) : Bool := decide (-(2 ^ 23) ≤ s) && decide (s ≤ 2 ^ 23 - 1)

end Sys2Proof.Machine
end

