-- ==== Sys2Proof/Machine/Ops.lean ====
section
/-! DEFINITION. The named operations the meanings share: the register space, the field and command encoders, the
sample decoder, the accumulator and calibration arithmetic, the two ways a request is answered, the wire, and what
the block takes from its boundary. Those that depend on a parameter of R4 take it as an argument. -/

namespace Sys2Proof.Machine

/-! ### The register space (`20_memory.md` R30, R37) -/

/-- `R[a]` (R7). -/
def Regs.get (r : Regs) : Fin 4 → Byte
  | 0 => r.r0
  | 1 => r.r1
  | 2 => r.r2
  | 3 => r.r3

/-- `R[a] <- v` (R7). -/
def Regs.set (r : Regs) : Fin 4 → Byte → Regs
  | 0, v => { r with r0 := v }
  | 1, v => { r with r1 := v }
  | 2, v => { r with r2 := v }
  | 3, v => { r with r3 := v }

/-- `MemRead(addr, n)`: the registers from `addr` on, in ascending order; none when one of them does not exist. -/
def memRead (r : Regs) : Nat → Nat → Option (List Byte)
  | _, 0 => some []
  | addr, n + 1 =>
    if h : addr < 4 then
      match memRead r (addr + 1) n with
      | some l => some (r.get ⟨addr, h⟩ :: l)
      | none => none
    else none

/-- `MemWrite(addr, n, v)` with `n = len(v)`: `R[addr + k] <- v[k]`; none when one of them does not exist. -/
def memWrite (r : Regs) : Nat → List Byte → Option Regs
  | _, [] => some r
  | addr, v :: l => if h : addr < 4 then memWrite (r.set ⟨addr, h⟩ v) (addr + 1) l else none

/-! ### Fields of a register (`40_register_fields.md` R65, R66) -/

/-- `mask(f) = (2^width - 1) << lsb` (R7). -/
def fieldMask (sl : FieldSlot) : Byte := BitVec.ofNat 8 ((2 ^ sl.width - 1) <<< sl.lsb)

/-- `encode_field`: the width check, then read-modify-write (R65). -/
def encodeField (sl : FieldSlot) (reg : Byte) (v : Int) : Except ErrorKind Byte :=
  if fitsWidth sl.width v = false then .error .outOfRange
  else .ok ((reg &&& (0xFF - fieldMask sl)) ||| BitVec.ofNat 8 (v.toNat <<< sl.lsb))

/-- `decode_field`: pure bit extraction, unsigned (R66). -/
def decodeField (sl : FieldSlot) (reg : Byte) : Int :=
  ((reg.toNat >>> sl.lsb) &&& (2 ^ sl.width - 1) : Nat)

/-! ### Command bytes (`41_command_bytes.md` R80) -/

/-- `build_command`, for any values of the opcode parameters. The operands of a non-addressed opcode are ignored
(D7). -/
def buildCommand (byteOf : OpcodeId → Byte) (opc : OpcodeId) (start count : Int) : Except ErrorKind Byte :=
  if opc.registerAccess then
    match checkAddressPair start count with
    | .error k => .error k
    | .ok () => .ok (addressedByte (byteOf opc) start count)
  else .ok (byteOf opc)

/-! ### Samples (`42_frame_codec.md` R100, `30_encoding.md` R54) -/

/-- Concatenate, first element most significant, `unit` bits each (R31, R100). -/
def assemble (unit : Nat) (seq : List Nat) : Nat := seq.foldl (fun u x => u * 2 ^ unit + x) 0

/-- `sext_W(u)` (R7). -/
def sext (w u : Nat) : Int := if u.testBit (w - 1) then (u : Int) - 2 ^ w else u

/-- `decode_sample`, one routine for bytes (`unit` = 8) and bits (`unit` = 1): the width check, then the length
check; an over-long input has no meaning (R100, D9). -/
def decodeSample (unit : Nat) (seq : List Nat) (w : Int) : Answer Int :=
  if admittedWidth w = false then .raise .outOfRange
  else if seq.length < w.toNat / unit then .raise .frameTooShort
  else if seq.length > w.toNat / unit then .noMeaning .overlongFrame
  else .ok (sext w.toNat (assemble unit seq))

/-! ### `Num` arithmetic, rounded after every operation (R6) -/

def addR (rnd : Num → Num) (a b : Num) : Num := rnd (a + b)
def subR (rnd : Num → Num) (a b : Num) : Num := rnd (a - b)
def mulR (rnd : Num → Num) (a b : Num) : Num := rnd (a * b)
def divR (rnd : Num → Num) (a b : Num) : Num := rnd (a / b)

/-! ### The averaging accumulator (`43_averaging.md`) -/

/-- Empty the accumulator (R115). -/
def Block.clearAcc (b : Block) : Block := { b with accSum := 0, accN := 0 }

/-- Add one sample: exact integer addition, no wrap (R116). -/
def Block.accumulate (b : Block) (s : Int) : Block := { b with accSum := b.accSum + s, accN := b.accN + 1 }

/-- The mean: one division, of a non-empty accumulator only (R117). -/
def Block.mean (rnd : Num → Num) (b : Block) : Except ErrorKind Code :=
  if b.accN = 0 then .error .outOfRange else .ok (divR rnd (b.accSum : Num) (b.accN : Num))

/-! ### The calibration line (`44_calibration.md` R127, R128, R133 to R135) -/

/-- `slope()`, kilograms per code (R127). -/
def Block.slope (rnd : Num → Num) (b : Block) : Num := divR rnd b.calMassKg (subR rnd b.spanCode b.zeroCode)

/-- `intercept()`, kilograms (R128). -/
def Block.intercept (rnd : Num → Num) (b : Block) : Num := mulR rnd (subR rnd 0 (b.slope rnd)) b.zeroCode

/-- The mass of a code before the tare is taken off: `slope * raw + intercept`. -/
def Block.grossMass (rnd : Num → Num) (b : Block) (raw : Code) : Num :=
  addR rnd (mulR rnd (b.slope rnd) raw) (b.intercept rnd)

/-- The tare of a code: its untared mass (R133). -/
def Block.tareOf (rnd : Num → Num) (b : Block) (raw : Code) : Except ErrorKind Num :=
  match b.conversionGuard with
  | .error k => .error k
  | .ok () => .ok (b.grossMass rnd raw)

/-- `to_mass` (R134). -/
def Block.toMass (rnd : Num → Num) (b : Block) (raw : Code) : Except ErrorKind Num :=
  match b.conversionGuard with
  | .error k => .error k
  | .ok () => .ok (subR rnd (b.grossMass rnd raw) b.tareKg)

/-- `to_voltage`, a pure function of its operands (R135). -/
def toVoltage (rnd : Num → Num) (raw : Code) (bits : Int) (vref : Num) (gain : Int) : Except ErrorKind Num :=
  if admittedWidth bits = false then .error .outOfRange
  else if admittedGain gain = false then .error .outOfRange
  else .ok (mulR rnd (divR rnd raw ((2 ^ (bits.toNat - 1) : Nat) : Num)) (divR rnd vref (gain : Num)))

/-- A mass given in a unit, in kilograms (R126). -/
def kilograms (rnd : Num → Num) (m : Num) (u : MassUnit) : Num := mulR rnd m (Config.scale u)

/-- A mass in kilograms, shown in a unit (R126; derived there, no operation of the block uses it). -/
def massInUnit (rnd : Num → Num) (massKg : Num) (u : MassUnit) : Num := divR rnd massKg (Config.scale u)

/-! ### Writing the block's state, one operation per group of R10 -/

def Block.withRegs (b : Block) (r : Regs) : Block := { b with regs := r }
def Block.recordZero (b : Block) (raw : Code) : Block := Block.setZeroValid { b with zeroCode := raw }
def Block.recordSpan (b : Block) (raw : Code) (massKg : Num) (u : MassUnit) : Block :=
  Block.setSpanValid { b with spanCode := raw, calMassKg := massKg, calUnit := u }
def Block.withTare (b : Block) (q : Num) : Block := { b with tareKg := q }

def State.withBlock (s : State) (b : Block) : State := { s with block := b }
def State.withResponse (s : State) (r : Response) : State := { s with response := some r }
def State.withWire (s : State) (f : WireFrame) : State := { s with wire := some f }
def State.withPending (s : State) (l : List HostInput) : State := { s with pending := l }

/-! ### Answering a request (R7, R8, `60_exceptions.md` R161, R162) -/

/-- `return v`: the request ends with `Ok(v)`. -/
def respond (r : Result) (s : State) : StepResult := .next (s.withResponse (.ok r))

/-- `raise k`: the block's trap entry. The request ends with `Err(k)`; nothing is saved, no mode changes, control
goes nowhere, and no state element of the block changes (R161). There is no operation that returns from it and
nothing to restore: the next request is performed as if the failed one had not been issued (R162). -/
def raiseError (k : ErrorKind) (s : State) : StepResult := .next (s.withResponse (.err k))

/-- Answer a request that reads the block and writes nothing of it. -/
def answer (a : Answer Result) (s : State) : StepResult :=
  match a with
  | .ok r => respond r s
  | .raise k => raiseError k s
  | .noMeaning r => .refused r

/-- The answer of an operation that can only succeed or raise an error. -/
def Answer.ofExcept {α : Type} (wrap : α → Result) : Except ErrorKind α → Answer Result
  | .ok a => .ok (wrap a)
  | .error k => .raise k

/-- The answer of a sample decoder. -/
def Answer.ofSample : Answer Int → Answer Result
  | .ok z => .ok (.int z)
  | .raise k => .raise k
  | .noMeaning r => .noMeaning r

/-! ### The wire (`30_encoding.md` R50) -/

/-- A wire command: its byte goes to the converter, with what follows it; the block is untouched (R83 to R88). -/
def transmit (command : Byte) (follows : Follows) (s : State) : StepResult := .next (s.withWire ⟨command, follows⟩)

/-- An addressed wire command: its byte is built as BCMD builds it, with BCMD's error (R87). -/
def transmitAddressed (opc : OpcodeId) (start count : Nat) (follows : Follows) (s : State) : StepResult :=
  match buildCommand Config.opcodeByte opc start count with
  | .error k => raiseError k s
  | .ok c => transmit c follows s

/-- The frame of a register write: the command byte, then the registers it names in ascending order. Both are built
before the first byte goes out, so an error sends nothing (R50, R88, R89). -/
def writeFrame (r : Regs) (start count : Int) : Except ErrorKind (Byte × List Byte) :=
  match buildCommand Config.opcodeByte .writeReg start count with
  | .error k => .error k
  | .ok c =>
    match checkBurst start count with
    | .error k => .error k
    | .ok () =>
      match memRead r start.toNat count.toNat with
      | some payload => .ok (c, payload)
      | none => .error .invalidAddress

/-- How many bytes follow the command byte, for a sample width `w` (R50). -/
def Follows.byteCount (w : Nat) : Follows → Nat
  | .nothing => 0
  | .payloadToChip payload => payload.length
  | .registersFromChip n => n
  | .sampleFromChip => w / 8

/-! ### The numeric form of a response (`60_exceptions.md` R151) -/

def ErrorKind.code : ErrorKind → Nat
  | .outOfRange => 1
  | .invalidAddress => 2
  | .frameTooShort => 3
  | .busTimeout => 4
  | .protocolError => 5
  | .calibrationIncomplete => 6
  | .divisionByZero => 7

/-- 0 for success, else the code of the kind (R151). -/
def Response.status : Response → Nat
  | .ok _ => 0
  | .err k => k.code

/-! ### What the block takes from its boundary (R8, R175) -/

/-- The reset event: every state element of the block to its reset value, and no other effect (R175). -/
def resetBlock (s : State) : State := s.withBlock Block.reset

/-- The next thing the host does, taken off the list. -/
def fetch (s : State) : Fetched :=
  match s.pending with
  | [] => .idle
  | .resetEvent :: rest => .resetEvent (s.withPending rest)
  | .present e :: rest =>
    match decode e with
    | .ok i => .run i (s.withPending rest)
    | .error err => .reject err

/-- The host presents `e` next. -/
def presentNext (s : State) (e : Encoded) : State := s.withPending (.present e :: s.pending)

end Sys2Proof.Machine
end

