-- ==== Sys2Proof/Machine/Averaging.lean ====
section
/-! DEFINITION. The averaging accumulator's operations: ACLR, AADD, AMEAN (`43_averaging.md`). -/

namespace Sys2Proof.Machine

/-- ACLR (R115). -/
def execAclr (s : State) : StepResult := respond .none (s.withBlock s.block.clearAcc)

/-- AADD s (R116); the sample is called `smp` here. -/
def execAadd (smp : Int) (s : State) : StepResult :=
  if sampleInRange smp = false then raiseError .outOfRange s
  else respond .none (s.withBlock (s.block.accumulate smp))

/-- AMEAN (R117): the accumulator is left as it is. -/
def execAmean (s : State) : StepResult := answer (Answer.ofExcept .num (s.block.mean Config.rnd)) s

end Sys2Proof.Machine
end

