-- ==== Sys2Proof/Machine/Calibration.lean ====
section
/-! DEFINITION. The Calibration Engine's operations: RZERO, RSPAN, CTARE, TMASS, TVOLT (`44_calibration.md`). -/

namespace Sys2Proof.Machine

/-- RZERO raw (R131): the span, the tare and the accumulator are untouched. -/
def execRzero (raw : Code) (s : State) : StepResult := respond .none (s.withBlock (s.block.recordZero raw))

/-- RSPAN raw, m, u (R132): the mass is stored in kilograms, the unit beside it. -/
def execRspan (raw : Code) (m : Num) (u : MassUnit) (s : State) : StepResult :=
  respond .none (s.withBlock (s.block.recordSpan raw (kilograms Config.rnd m u) u))

/-- CTARE raw (R133): a new tare replaces the old one. -/
def execCtare (raw : Code) (s : State) : StepResult :=
  match s.block.tareOf Config.rnd raw with
  | .error k => raiseError k s
  | .ok q => respond .none (s.withBlock (s.block.withTare q))

/-- TMASS raw (R134): kilograms, whatever unit the calibration mass was given in. -/
def execTmass (raw : Code) (s : State) : StepResult :=
  answer (Answer.ofExcept .num (s.block.toMass Config.rnd raw)) s

/-- TVOLT raw, bits, vref, gain (R135): it reads no state. -/
def execTvolt (raw : Code) (bits : Int) (vref : Num) (gain : Int) (s : State) : StepResult :=
  answer (Answer.ofExcept .num (toVoltage Config.rnd raw bits vref gain)) s

end Sys2Proof.Machine
end

