-- ==== Sys2Proof/Machine/FrameCodec.lean ====
section
/-! DEFINITION. The Frame Codec's operations: DSMP, DSMPB, EPAY, LPAY (`42_frame_codec.md`). -/

namespace Sys2Proof.Machine

/-- DSMP bytes, W (R102). -/
def execDsmp (bytes : List Byte) (w : Int) (s : State) : StepResult :=
  answer (Answer.ofSample (decodeSample 8 (bytes.map BitVec.toNat) w)) s

/-- DSMPB bits, W (R103). -/
def execDsmpb (bits : List Bool) (w : Int) (s : State) : StepResult :=
  answer (Answer.ofSample (decodeSample 1 (bits.map Bool.toNat) w)) s

/-- EPAY start, count: the registers in ascending address order (R104). -/
def execEpay (start count : Int) (s : State) : StepResult :=
  match checkBurst start count with
  | .error k => raiseError k s
  | .ok () =>
    match memRead s.block.regs start.toNat count.toNat with
    | some bytes => respond (.bytes bytes) s
    | none => .fault (.noRegister (start + count - 1).toNat)

/-- LPAY start, count, bytes: the address checks, the length check, then a whole-byte overwrite (R105); a payload
longer than `count` has no meaning (D9). -/
def execLpay (start count : Int) (bytes : List Byte) (s : State) : StepResult :=
  match checkBurst start count with
  | .error k => raiseError k s
  | .ok () =>
    if bytes.length < count.toNat then raiseError .frameTooShort s
    else if bytes.length > count.toNat then .refused .overlongPayload
    else
      match memWrite s.block.regs start.toNat bytes with
      | some regs => respond .none (s.withBlock (s.block.withRegs regs))
      | none => .fault (.noRegister (start + count - 1).toNat)

end Sys2Proof.Machine
end

