-- ==== Sys2Proof/Machine/RegisterModel.lean ====
section
/-! DEFINITION. The Register Model's operations: ENCF, DECF, SETF, GETF (`40_register_fields.md`) and BCMD
(`41_command_bytes.md`). -/

namespace Sys2Proof.Machine

/-- ENCF reg, f, v (R68). -/
def execEncf (reg : Byte) (f : FieldId) (v : Int) (s : State) : StepResult :=
  answer (Answer.ofExcept .byte (encodeField (Config.fieldTable f) reg v)) s

/-- DECF reg, f (R69). -/
def execDecf (reg : Byte) (f : FieldId) (s : State) : StepResult :=
  respond (.int (decodeField (Config.fieldTable f) reg)) s

/-- SETF f, v: read-modify-write of the register the field lives in, and of no other (R70). -/
def execSetf (f : FieldId) (v : Int) (s : State) : StepResult :=
  let slot := Config.fieldTable f
  match encodeField slot (s.block.regs.get slot.reg) v with
  | .error k => raiseError k s
  | .ok new => respond .none (s.withBlock (s.block.withRegs (s.block.regs.set slot.reg new)))

/-- GETF f (R71). -/
def execGetf (f : FieldId) (s : State) : StepResult :=
  let slot := Config.fieldTable f
  respond (.int (decodeField slot (s.block.regs.get slot.reg))) s

/-- BCMD opc, start, count (R82). -/
def execBcmd (opc : OpcodeId) (start count : Int) (s : State) : StepResult :=
  answer (Answer.ofExcept .byte (buildCommand Config.opcodeByte opc start count)) s

end Sys2Proof.Machine
end

