-- ==== Sys2Proof/Machine/WireCommands.lean ====
section
/-! DEFINITION. The six wire commands (`41_command_bytes.md` R83 to R88): the byte, what follows it on the wire
(`30_encoding.md` R50), and no effect on the block. -/

namespace Sys2Proof.Machine

/-- RESET (R83): the shadow registers keep their values. -/
def execCmdReset (s : State) : StepResult := transmit (Config.opcodeByte .reset) .nothing s

/-- SHUTDOWN (R84). -/
def execCmdShutdown (s : State) : StepResult := transmit (Config.opcodeByte .shutdown) .nothing s

/-- START (R85). -/
def execCmdStart (s : State) : StepResult := transmit (Config.opcodeByte .start) .nothing s

/-- READ_DATA (R86): a sample frame follows. -/
def execCmdReadData (s : State) : StepResult := transmit (Config.opcodeByte .readData) .sampleFromChip s

/-- READ_REG start, count (R87): `count` bytes are read from the converter; the shadow registers change only when
the host loads them with LPAY. -/
def execCmdReadReg (start count : Nat) (s : State) : StepResult :=
  transmitAddressed .readReg start count (.registersFromChip count) s

/-- WRITE_REG start, count (R88): the `count` payload bytes that EPAY produces are written to the converter, with
BCMD's and EPAY's errors. -/
def execCmdWriteReg (start count : Nat) (s : State) : StepResult :=
  match writeFrame s.block.regs start count with
  | .error k => raiseError k s
  | .ok (c, payload) => transmit c (.payloadToChip payload) s

end Sys2Proof.Machine
end

