-- ==== Sys2Proof/Machine/Dispatch.lean ====
section
/-! DEFINITION. The meaning of every instruction, one arm per constructor of `Instr`. -/

namespace Sys2Proof.Machine

def exec (i : Instr) (s : State) : Host.Outcome State Fault Refusal :=
  match i with
  -- wire commands, `41_command_bytes.md`
  | .cmdReset => Sys2Proof.Machine.execCmdReset s
  | .cmdShutdown => Sys2Proof.Machine.execCmdShutdown s
  | .cmdStart => Sys2Proof.Machine.execCmdStart s
  | .cmdReadData => Sys2Proof.Machine.execCmdReadData s
  | .cmdReadReg start count => Sys2Proof.Machine.execCmdReadReg start count s
  | .cmdWriteReg start count => Sys2Proof.Machine.execCmdWriteReg start count s
  -- Register Model, `40_register_fields.md`, `41_command_bytes.md`
  | .encf reg f v => Sys2Proof.Machine.execEncf reg f v s
  | .decf reg f => Sys2Proof.Machine.execDecf reg f s
  | .setf f v => Sys2Proof.Machine.execSetf f v s
  | .getf f => Sys2Proof.Machine.execGetf f s
  | .bcmd opc start count => Sys2Proof.Machine.execBcmd opc start count s
  -- Frame Codec, `42_frame_codec.md`
  | .dsmp bytes w => Sys2Proof.Machine.execDsmp bytes w s
  | .dsmpb bits w => Sys2Proof.Machine.execDsmpb bits w s
  | .epay start count => Sys2Proof.Machine.execEpay start count s
  | .lpay start count bytes => Sys2Proof.Machine.execLpay start count bytes s
  -- averaging accumulator, `43_averaging.md`
  | .aclr => Sys2Proof.Machine.execAclr s
  | .aadd smp => Sys2Proof.Machine.execAadd smp s
  | .amean => Sys2Proof.Machine.execAmean s
  -- Calibration Engine, `44_calibration.md`
  | .rzero raw => Sys2Proof.Machine.execRzero raw s
  | .rspan raw m u => Sys2Proof.Machine.execRspan raw m u s
  | .ctare raw => Sys2Proof.Machine.execCtare raw s
  | .tmass raw => Sys2Proof.Machine.execTmass raw s
  | .tvolt raw bits vref gain => Sys2Proof.Machine.execTvolt raw bits vref gain s

end Sys2Proof.Machine
end

