-- ==== Sys2Proof/Machine/Step.lean ====
section
/-! DEFINITION. One step of the machine: one host request, one wire command or one reset event, performed whole
before the next is accepted (`00_scope.md` R8, `20_memory.md` R38). -/

namespace Sys2Proof.Machine

/-- The block executes nothing on its own (R20): when the host presents nothing, nothing changes (DESIGN CHOICE,
log entry 3). -/
def step (s : State) : Host.Outcome State Fault Refusal :=
  match fetch s with
  | .idle => .next s
  | .resetEvent s' => .next (resetBlock s')
  | .run i s' => exec i s'
  | .reject e => .refused (.noOperation e)

/-- The state in which the next step performs the instruction a table word stands for: the host presents it next
(log entries 1 and 3). -/
def State.withFetchWord (s : State) (nbits w : Nat) : State := presentNext s (encodedOfTableWord nbits w)

end Sys2Proof.Machine
end

