-- ==== Sys2Proof/Machine/Pseudo.lean ====
section
/-! DEFINITION. Sequences of operations the spec names: the pseudo-operations WREGFRAME, AVG and CONFIGURE
(`30_encoding.md` R61), `configure` (R72), the bytes of a write frame (R50, R89), and `read_averaged` over frames
already read (R118). -/

namespace Sys2Proof.Machine

/-- The latest response is an error. -/
def State.erred (s : State) : Bool :=
  match s.response with
  | some (.err _) => true
  | some (.ok _) => false
  | none => false

/-- Perform operations in order; "If any step of an expansion returns `Err`, the expansion stops there with that
error" (R61). -/
def runUntilErr : List Instr → State → StepResult
  | [], s => .next s
  | i :: rest, s =>
    match exec i s with
    | .next t => if t.erred then .next t else runUntilErr rest t
    | .fault r => .fault r
    | .refused r => .refused r

/-- The pseudo-operations (R61). -/
inductive Pseudo where
  | wregframe (start count : Int)
  | avg (samples : List Int)
  | configure
  deriving DecidableEq, Repr

/-- Their fixed expansions (R61). -/
def Pseudo.expand : Pseudo → List Instr
  | .wregframe start count => [.bcmd .writeReg start count, .epay start count]
  | .avg samples => .aclr :: samples.map .aadd ++ [.amean]
  | .configure => [.bcmd .writeReg 0 4, .epay 0 4]

/-- `configure`: one SETF per field the caller sets, then the transfer CONFIGURE (R72). -/
def configureFields (settings : List (FieldId × Int)) : List Instr :=
  settings.map (fun p => Instr.setf p.1 p.2) ++ Pseudo.configure.expand

/-- The wire bytes of a write: the command byte, then the payload (R50, R61); nothing when either cannot be built, so
a host that sends only what it could build never leaves the converter mid-transaction (R89, R182). -/
def writeFrameBytes (r : Regs) (start count : Int) : Except ErrorKind (List Byte) :=
  match writeFrame r start count with
  | .error k => .error k
  | .ok (c, payload) => .ok (c :: payload)

/-- The K accumulation steps of `read_averaged`: DSMP then AADD for each frame, then AMEAN; the first error ends it
(R118). -/
def accumulateFrames (w : Int) : List (List Byte) → State → StepResult
  | [], s => exec .amean s
  | frame :: rest, s =>
    match exec (.dsmp frame w) s with
    | .next t =>
      match t.response with
      | some (.ok (.int z)) =>
        match exec (.aadd z) t with
        | .next u => if u.erred then .next u else accumulateFrames w rest u
        | .fault r => .fault r
        | .refused r => .refused r
      | _ => .next t
    | .fault r => .fault r
    | .refused r => .refused r

/-- `read_averaged` over the frames of K reads: ACLR first (R118). -/
def readAveraged (w : Int) (frames : List (List Byte)) (s : State) : StepResult :=
  match exec .aclr s with
  | .next t => accumulateFrames w frames t
  | .fault r => .fault r
  | .refused r => .refused r

end Sys2Proof.Machine
end

