-- ==== Sys2Proof/Safety.lean ====
section
/-! DEFINITION. What holds along every run, and the whole-machine tables of the spec that statements refer to: who
may raise which error (`60_exceptions.md` R151), what is readable (`10_state.md` R17), and which inputs have no
meaning (`93_implementation_defined.md` U4). -/

namespace Sys2Proof.Machine

/-- The accumulated sum lies in [-K*2^23, K*(2^23 - 1)] (R18). -/
abbrev Block.AccBounded (b : Block) : Prop :=
  -((b.accN : Int) * 2 ^ 23) ≤ b.accSum ∧ b.accSum ≤ (b.accN : Int) * (2 ^ 23 - 1)

/-- A tare other than zero was derived from a complete calibration (R22, R133). -/
abbrev Block.TareFromCalibration (b : Block) : Prop :=
  b.tareKg = 0 ∨ (b.zeroValid = true ∧ b.spanValid = true)

/-- The invariant every step keeps. -/
abbrev State.Inv (s : State) : Prop := s.block.AccBounded ∧ s.block.TareFromCalibration

/-- R151's table: the error kinds a host operation may raise. -/
def mayRaise : Instr → List ErrorKind
  | .encf _ _ _ | .setf _ _ | .aadd _ | .amean | .tvolt _ _ _ _ => [.outOfRange]
  | .bcmd _ _ _ | .epay _ _ => [.invalidAddress]
  | .dsmp _ _ | .dsmpb _ _ => [.outOfRange, .frameTooShort]
  | .lpay _ _ _ => [.invalidAddress, .frameTooShort]
  | .ctare _ | .tmass _ => [.calibrationIncomplete, .divisionByZero]
  | .decf _ _ | .getf _ | .aclr | .rzero _ | .rspan _ _ _ => []
  | .cmdReset | .cmdShutdown | .cmdStart | .cmdReadData | .cmdReadReg _ _ | .cmdWriteReg _ _ => []

/-- The over-long inputs, to which the spec gives no meaning (R100, R105, U4): they pass every check and hold more
than the operation needs. -/
abbrev Overlong : Instr → Prop
  | .dsmp bytes w => (w = 16 ∧ 2 < bytes.length) ∨ (w = 24 ∧ 3 < bytes.length)
  | .dsmpb bits w => (w = 16 ∧ 16 < bits.length) ∨ (w = 24 ∧ 24 < bits.length)
  | .lpay start count bytes => 0 ≤ start ∧ 1 ≤ count ∧ start + count ≤ 4 ∧ count < (bytes.length : Int)
  | .cmdReset | .cmdShutdown | .cmdStart | .cmdReadData | .cmdReadReg _ _ | .cmdWriteReg _ _
  | .encf _ _ _ | .decf _ _ | .setf _ _ | .getf _ | .bcmd _ _ _ | .epay _ _ | .aclr | .aadd _ | .amean
  | .rzero _ | .rspan _ _ _ | .ctare _ | .tmass _ | .tvolt _ _ _ _ => False

/-- The pure operations: they read and write no state element (R10). -/
def isPureOp : Instr → Bool
  | .encf _ _ _ | .decf _ _ | .bcmd _ _ _ | .dsmp _ _ | .dsmpb _ _ | .tvolt _ _ _ _ => true
  | .cmdReset | .cmdShutdown | .cmdStart | .cmdReadData | .cmdReadReg _ _ | .cmdWriteReg _ _
  | .setf _ _ | .getf _ | .epay _ _ | .lpay _ _ _ | .aclr | .aadd _ | .amean | .rzero _ | .rspan _ _ _
  | .ctare _ | .tmass _ => false

/-- What a host operation that succeeds may do to the block (R10's "written by" column); the elements an operation's
row does not name are left alone. -/
abbrev BlockEffect : Instr → Block → Block → Prop
  | .setf _ _, b, b' | .lpay _ _ _, b, b' => ∃ r, b' = b.withRegs r
  | .aclr, b, b' => b' = b.clearAcc
  | .aadd smp, b, b' => (-(2 ^ 23) ≤ smp ∧ smp ≤ 2 ^ 23 - 1) ∧ b' = b.accumulate smp
  | .rzero raw, b, b' => b' = b.recordZero raw
  | .rspan raw _ u, b, b' => ∃ q, b' = b.recordSpan raw q u
  | .ctare _, b, b' => (b.zeroValid = true ∧ b.spanValid = true) ∧ ∃ q, b' = b.withTare q
  | .encf _ _ _, b, b' | .decf _ _, b, b' | .getf _, b, b' | .bcmd _ _ _, b, b' | .dsmp _ _, b, b'
  | .dsmpb _ _, b, b' | .epay _ _, b, b' | .amean, b, b' | .tmass _, b, b' | .tvolt _ _ _ _, b, b'
  | .cmdReset, b, b' | .cmdShutdown, b, b' | .cmdStart, b, b' | .cmdReadData, b, b' | .cmdReadReg _ _, b, b'
  | .cmdWriteReg _ _, b, b' => b' = b

/-- Two blocks agree on everything an operation can read: where a flag is false, the elements it guards hold no
value (R17). -/
abbrev Block.SameReadable (a b : Block) : Prop :=
  a.regs = b.regs ∧ a.zeroValid = b.zeroValid ∧ a.spanValid = b.spanValid ∧ a.tareKg = b.tareKg ∧
  a.accSum = b.accSum ∧ a.accN = b.accN ∧
  (a.zeroValid = true → a.zeroCode = b.zeroCode) ∧
  (a.spanValid = true → a.spanCode = b.spanCode ∧ a.calMassKg = b.calMassKg ∧ a.calUnit = b.calUnit)

/-- Two states agree on everything readable and on everything that crosses the boundary. -/
abbrev State.SameReadable (s t : State) : Prop :=
  s.block.SameReadable t.block ∧ s.pending = t.pending ∧ s.response = t.response ∧ s.wire = t.wire

/-- Two outcomes that no host could tell apart. -/
abbrev SameOutcome : StepResult → StepResult → Prop
  | .next s, .next t => s.SameReadable t
  | .fault a, .fault b => a = b
  | .refused a, .refused b => a = b
  | .next _, .fault _ | .next _, .refused _ | .fault _, .next _ | .fault _, .refused _
  | .refused _, .next _ | .refused _, .fault _ => False

end Sys2Proof.Machine
end

