-- ==== Sys2Proof/Certificates/Slice0/Obligations.lean ====
section
/-! DEFINITION. The statements for the provers. Each docstring names the rule of spec/ it formalises, or says that it
is derived and from what. `Config.*` names stand for the parameters of R4; a statement that needs a particular value
of one says so. -/

open Sys2Proof Sys2Proof.Machine

/-! ### Encoding -/

/-- Every well-formed instruction survives encoding and decoding, with every operand at every value its encoding
admits. Derived: `30_encoding.md` sections 1 to 4. The selector and operand numbers are the spec's own choice (D4)
and the request's operand form is the model's, log entry 2. -/
def Obligations.DecodeOfEncodeIsInstruction : Prop :=
  ∀ i : Instr, i.wf = true → decode (encode i) = .ok i

/-- Whatever decodes is well formed and is exactly what the encoder writes: no two encoded forms spell one
instruction. Derived: `30_encoding.md` sections 1 to 4, D4, log entry 2. -/
def Obligations.EncodeOfDecodeIsWord : Prop :=
  ∀ (e : Encoded) (i : Instr), decode e = .ok i → i.wf = true ∧ encode i = e

/-- Eight words written out from the spec's encodings decode to what they stand for. Derived: R55 to R58 and the
encodings of P1, P3 and P4 in `95_test_vectors.md`; the opcode bytes are general knowledge (D5, log entry 5), the
selectors the spec's choice (D4). -/
def Obligations.KnownWordsDecode : Prop :=
  decode (.command 0x06) = .ok .cmdReset ∧
  decode (.command 0x29) = .ok (.cmdReadReg 2 2) ∧
  decode (.command 0x43) = .ok (.cmdWriteReg 0 4) ∧
  decode (.request 0x02 [.int 8, .int 2]) = .ok (.setf .vref 2) ∧
  decode (.request 0x04 [.int 5, .int 0, .int 4]) = .ok (.bcmd .writeReg 0 4) ∧
  decode (.request 0x08 [.int 0, .int 2, .ints [0x0E, 0x04]]) = .ok (.lpay 0 2 [0x0E, 0x04]) ∧
  decode (.request 0x0A [.int (-10)]) = .ok (.aadd (-10)) ∧
  decode (.request 0x0D [.num 9000, .num 100, .int 1]) = .ok (.rspan 9000 100 .g)

/-- For any opcode bytes that meet R4's constraints, a command byte is a non-addressed command exactly when it equals
the opcode byte, a register-access command exactly when its high nibble is the opcode's (start address in bits 3:2,
count in bits 1:0 plus one), and no command otherwise; the decoder is that classification, and with the default
values exactly the bytes 0x02, 0x06, 0x08, 0x10, 0x20 to 0x2F and 0x40 to 0x4F decode. Derived: R58 with R53, a
decision of the spec (D30); the default values are general knowledge (D5, log entry 5). -/
def Obligations.CommandByteClassification : Prop :=
  (∀ byteOf : OpcodeId → Byte, OpcodeBytesAdmissible byteOf → ∀ c : Byte,
    (decodeCommandWith byteOf c = .ok .cmdReset ↔ c = byteOf .reset) ∧
    (decodeCommandWith byteOf c = .ok .cmdShutdown ↔ c = byteOf .shutdown) ∧
    (decodeCommandWith byteOf c = .ok .cmdStart ↔ c = byteOf .start) ∧
    (decodeCommandWith byteOf c = .ok .cmdReadData ↔ c = byteOf .readData) ∧
    (∀ start count, decodeCommandWith byteOf c = .ok (.cmdReadReg start count) ↔
      c &&& 0xF0 = byteOf .readReg ∧ start = c.toNat / 4 % 4 ∧ count = c.toNat % 4 + 1) ∧
    (∀ start count, decodeCommandWith byteOf c = .ok (.cmdWriteReg start count) ↔
      c &&& 0xF0 = byteOf .writeReg ∧ start = c.toNat / 4 % 4 ∧ count = c.toNat % 4 + 1) ∧
    (decodeCommandWith byteOf c = .error (.unassignedCommand c) ↔
      c ≠ byteOf .reset ∧ c ≠ byteOf .shutdown ∧ c ≠ byteOf .start ∧ c ≠ byteOf .readData ∧
      c &&& 0xF0 ≠ byteOf .readReg ∧ c &&& 0xF0 ≠ byteOf .writeReg)) ∧
  (∀ c : Byte, decode (.command c) = decodeCommandWith Config.opcodeByte c) ∧
  (∀ n : Nat, n < 256 →
    ((∃ i, decode (.command (BitVec.ofNat 8 n)) = .ok i) ↔
      n = 0x02 ∨ n = 0x06 ∨ n = 0x08 ∨ n = 0x10 ∨ (0x20 ≤ n ∧ n ≤ 0x2F) ∨ (0x40 ≤ n ∧ n ≤ 0x4F)))

/-- A selector above 0x10, an opcode id above 5, a field id not in the field table and a unit code above 3 spell no
operation, and the step that meets an input that does not decode is refused with the reason. A negative id or code,
which the spec does not mention, is treated alike. Derived: R59 (b) and U1; the numbers are the spec's choice (D4),
the numeric operand form is the model's (log entry 2) and so is the treatment of a negative id or code (log entry 2).
-/
def Obligations.UnassignedRequestsRefused : Prop :=
  (∀ (opsel : Byte) (ops : List Operand), 0x10 < opsel.toNat →
    decode (.request opsel ops) = .error (.unassignedSelector opsel)) ∧
  (∀ z start count : Int, z < 0 ∨ 5 < z →
    decode (.request 0x04 [.int z, .int start, .int count]) = .error (.unknownOpcode z)) ∧
  (∀ (reg : Byte) (z v : Int), z < 0 ∨ 15 < z →
    decode (.request 0x00 [.int reg.toNat, .int z, .int v]) = .error (.unknownField z) ∧
    decode (.request 0x01 [.int reg.toNat, .int z]) = .error (.unknownField z) ∧
    decode (.request 0x02 [.int z, .int v]) = .error (.unknownField z) ∧
    decode (.request 0x03 [.int z]) = .error (.unknownField z)) ∧
  (∀ (raw m : Rat) (z : Int), z < 0 ∨ 3 < z →
    decode (.request 0x0D [.num raw, .num m, .int z]) = .error (.unknownUnit z)) ∧
  (∀ (s : State) (e : Encoded) (rest : List HostInput) (err : DecodeError),
    s.pending = .present e :: rest → decode e = .error err → step s = .refused (.noOperation err))

/-! ### Steps and reset -/

/-- When the next thing the host presents decodes to an instruction i, the step is exec of i with the rest of the
host's list left to perform; when the host presents nothing, nothing changes. Derived: `00_scope.md` R8,
`20_memory.md` R38, `10_state.md` R20; the list and the idle step are the model's form of the host, log entry 3. -/
def Obligations.StepRunsDecodedInstruction : Prop :=
  (∀ (s : State) (e : Encoded) (rest : List HostInput) (i : Instr),
    s.pending = .present e :: rest → decode e = .ok i → step s = exec i { s with pending := rest }) ∧
  (∀ s : State, s.pending = [] → step s = .next s)

/-- The reset event puts every state element the spec gives a reset value to that value and takes nothing but itself
off the host's list; it cannot fail and has no response. Derived: R175 with R22, both decisions of the spec (D27,
D12); that the boundary records stay as they are is the model's, log entry 11. -/
def Obligations.ResetEventResetsBlock : Prop :=
  ∀ (s : State) (rest : List HostInput), s.pending = .resetEvent :: rest →
    ∃ t, step s = .next t ∧
      (∀ a : Fin 4, t.block.regs.get a = Config.regReset a) ∧
      t.block.zeroValid = false ∧ t.block.spanValid = false ∧ t.block.tareKg = 0 ∧
      t.block.accSum = 0 ∧ t.block.accN = 0 ∧
      t.pending = rest ∧ t.response = s.response ∧ t.wire = s.wire

/-- After reset the registers hold REG_RESET, 0x00 each, both flags are false, the tare, the sum and the count are 0,
and the host has presented nothing. Derived: R22, a decision of the spec (D12); 0x00 is general knowledge (log entry
7). The values of the four elements the spec leaves unspecified are the model's (log entry 9) and are not stated; the
empty list is log entry 3. -/
def Obligations.ResetStateValues : Prop :=
  (∀ a : Fin 4, State.reset.block.regs.get a = Config.regReset a ∧ Config.regReset a = 0x00) ∧
  State.reset.block.zeroValid = false ∧ State.reset.block.spanValid = false ∧
  State.reset.block.tareKg = 0 ∧ State.reset.block.accSum = 0 ∧ State.reset.block.accN = 0 ∧
  State.reset.pending = []

/-! ### Register Model -/

/-- In the default field table every row fits its register and every bit of every register belongs to exactly one
field; MUX is 4 bits wide, GAIN 3 and PGA_BYPASS 1. Derived: R12 for the table of R13, whose positions are general
knowledge (D6, log entry 6). -/
def Obligations.DefaultFieldTablePartitions : Prop :=
  Partitions Config.fieldTable ∧ (Config.fieldTable .mux).width = 4 ∧ (Config.fieldTable .gain).width = 3 ∧
    (Config.fieldTable .pgaBypass).width = 1

/-- ENCF answers the given byte with the field's bits replaced by the value, `(reg & (0xFF - mask)) | (v << lsb)`,
when the value fits the field's width, and fails with OutOfRange when it is too large or negative; it touches nothing
but the response. Derived: R65, R68; that a negative value is OutOfRange is a decision (D29). -/
def Obligations.EncfReplacesField : Prop :=
  ∀ (reg : Byte) (f : FieldId) (v : Int) (s : State),
    (0 ≤ v ∧ v < 2 ^ (Config.fieldTable f).width →
      ∃ b : Byte, exec (.encf reg f v) s = .next { s with response := some (.ok (.byte b)) } ∧
        b.toNat = (reg.toNat &&& (255 - ((2 ^ (Config.fieldTable f).width - 1) <<< (Config.fieldTable f).lsb))) |||
          (v.toNat <<< (Config.fieldTable f).lsb)) ∧
    (v < 0 ∨ 2 ^ (Config.fieldTable f).width ≤ v →
      exec (.encf reg f v) s = .next { s with response := some (.err .outOfRange) })

/-- R66: DECF answers bits lsb+w-1 down to lsb of the byte as an unsigned number, never fails, and touches nothing
but the response. -/
def Obligations.DecfExtractsField : Prop :=
  ∀ (reg : Byte) (f : FieldId) (s : State),
    exec (.decf reg f) s = .next { s with response := some (.ok (.int
      ((reg.toNat / 2 ^ (Config.fieldTable f).lsb % 2 ^ (Config.fieldTable f).width : Nat) : Int))) }

/-- SETF replaces the field's bits of the register the field lives in, with R65's formula, and changes no other
register and nothing else of the block; a value that is too large or negative fails with OutOfRange and changes
nothing but the response. Derived: R70 with R65; the operation is an addition of the spec (D3), the negative case a
decision (D29). -/
def Obligations.SetfReplacesFieldOfRegister : Prop :=
  ∀ (f : FieldId) (v : Int) (s : State),
    (0 ≤ v ∧ v < 2 ^ (Config.fieldTable f).width →
      ∃ r : Regs, exec (.setf f v) s =
          .next { s with block := { s.block with regs := r }, response := some (.ok .none) } ∧
        (r.get (Config.fieldTable f).reg).toNat =
          ((s.block.regs.get (Config.fieldTable f).reg).toNat &&&
            (255 - ((2 ^ (Config.fieldTable f).width - 1) <<< (Config.fieldTable f).lsb))) |||
          (v.toNat <<< (Config.fieldTable f).lsb) ∧
        ∀ a : Fin 4, a ≠ (Config.fieldTable f).reg → r.get a = s.block.regs.get a) ∧
    (v < 0 ∨ 2 ^ (Config.fieldTable f).width ≤ v →
      exec (.setf f v) s = .next { s with response := some (.err .outOfRange) })

/-- GETF answers the field of the shadow register it lives in, never fails, and touches nothing but the response.
Derived: R71 with R66; the operation is an addition of the spec (D3). -/
def Obligations.GetfReadsField : Prop :=
  ∀ (f : FieldId) (s : State),
    exec (.getf f) s = .next { s with response := some (.ok (.int
      (((s.block.regs.get (Config.fieldTable f).reg).toNat / 2 ^ (Config.fieldTable f).lsb
        % 2 ^ (Config.fieldTable f).width : Nat) : Int))) }

/-- R67: For any field table that satisfies R12, every byte, every field and every fitting value: the value reads
back, every other field of the register is unchanged, and so is every bit outside the field's mask. The sentence of
R67 that the spec marks as derived is Obligations.WritingBackChangesNothing. -/
def Obligations.FieldRoundTripLaw : Prop :=
  ∀ (F : Type) (table : F → FieldSlot), Partitions table → ∀ (f : F) (reg : Byte) (v : Int),
    0 ≤ v → v < 2 ^ (table f).width →
      ∃ b : Byte, encodeField (table f) reg v = .ok b ∧ decodeField (table f) b = v ∧
        (∀ g : F, g ≠ f → (table g).reg = (table f).reg → decodeField (table g) b = decodeField (table g) reg) ∧
        b &&& (0xFF - fieldMask (table f)) = reg &&& (0xFF - fieldMask (table f))

/-- Encoding into a byte the value that the field already holds there answers the byte unchanged, for any field table
that satisfies R12. Derived: the last sentence of R67 but one, which the spec marks as its own inference from R65 and
R66. -/
def Obligations.WritingBackChangesNothing : Prop :=
  ∀ (F : Type) (table : F → FieldSlot), Partitions table → ∀ (f : F) (reg : Byte),
    encodeField (table f) reg (decodeField (table f) reg) = .ok reg

/-- After a SETF that succeeds, GETF of the field returns the value set, and GETF of every other field, in any
register, returns what it returned before. Derived: the corner cases of R71 and R70, which the spec marks as
inferences from R67. -/
def Obligations.SetfThenGetfReturnsValue : Prop :=
  ∀ (f : FieldId) (v : Int) (s t : State),
    exec (.setf f v) s = .next t → t.response = some (.ok .none) →
      exec (.getf f) t = .next { t with response := some (.ok (.int v)) } ∧
      ∀ (g : FieldId) (z : Int), g ≠ f →
        exec (.getf g) s = .next { s with response := some (.ok (.int z)) } →
        exec (.getf g) t = .next { t with response := some (.ok (.int z)) }

/-- Two SETFs of different fields that both fit leave the same state, with response Ok, in either order. Derived: a
corner case of R70, which the spec marks as its inference from R67. -/
def Obligations.SetfOfDifferentFieldsCommute : Prop :=
  ∀ (f g : FieldId) (v w : Int) (s : State), f ≠ g →
    0 ≤ v → v < 2 ^ (Config.fieldTable f).width → 0 ≤ w → w < 2 ^ (Config.fieldTable g).width →
    ∃ t, runUntilErr [.setf f v, .setf g w] s = .next t ∧ runUntilErr [.setf g w, .setf f v] s = .next t ∧
      t.response = some (.ok .none)

/-- BCMD answers `(byte(opc) & 0xF0) | ((start << 2) & 0x0C) | ((count - 1) & 0x03)` for a register-access opcode,
fails with InvalidAddress when `start` is outside [0,3] or `count` outside [1,4], and answers a non-addressed
opcode's byte unchanged whatever the operands; it touches nothing but the response. Derived: R80, R82; that a
non-addressed opcode ignores its operands is a decision (D7, log entry 14). -/
def Obligations.BcmdBuildsCommandByte : Prop :=
  ∀ (opc : OpcodeId) (start count : Int) (s : State),
    (opc.registerAccess = true → 0 ≤ start → start ≤ 3 → 1 ≤ count → count ≤ 4 →
      ∃ b : Byte, exec (.bcmd opc start count) s = .next { s with response := some (.ok (.byte b)) } ∧
        b.toNat = ((Config.opcodeByte opc).toNat &&& 0xF0) ||| ((start.toNat <<< 2) &&& 0x0C) |||
          ((count.toNat - 1) &&& 0x03)) ∧
    (opc.registerAccess = true → start < 0 ∨ 3 < start ∨ count < 1 ∨ 4 < count →
      exec (.bcmd opc start count) s = .next { s with response := some (.err .invalidAddress) }) ∧
    (opc.registerAccess = false →
      exec (.bcmd opc start count) s = .next { s with response := some (.ok (.byte (Config.opcodeByte opc))) })

/-- R81: For every address 0 to 3 and every count 1 to 4, building a READ_REG or a WRITE_REG byte succeeds, and its
low nibble is `((addr << 2) & 0x0C) | ((count - 1) & 0x03)`; for any opcode bytes that meet R4's constraints. What
R81 marks as derived is Obligations.CommandOperandsRecoverable. -/
def Obligations.CommandLowNibbleLaw : Prop :=
  ∀ byteOf : OpcodeId → Byte, OpcodeBytesAdmissible byteOf →
    ∀ (opc : OpcodeId) (start count : Int), opc = .readReg ∨ opc = .writeReg →
      0 ≤ start → start ≤ 3 → 1 ≤ count → count ≤ 4 →
      ∃ b : Byte, buildCommand byteOf opc start count = .ok b ∧
        b.toNat % 16 = ((start.toNat <<< 2) &&& 0x0C) ||| ((count.toNat - 1) &&& 0x03)

/-- A register-access byte keeps its opcode's high nibble, the operands can be read back from bits 3:2 and 1:0, and
two register-access bytes that are equal were built from the same opcode, start and count; for any opcode bytes that
meet R4's constraints. Derived: the last sentences of R81, which the spec marks as its own inference from R80. -/
def Obligations.CommandOperandsRecoverable : Prop :=
  ∀ byteOf : OpcodeId → Byte, OpcodeBytesAdmissible byteOf →
    (∀ (opc : OpcodeId) (start count : Int), opc.registerAccess = true →
      0 ≤ start → start ≤ 3 → 1 ≤ count → count ≤ 4 →
      ∃ b : Byte, buildCommand byteOf opc start count = .ok b ∧
        b.toNat / 16 = (byteOf opc).toNat / 16 ∧
        (b.toNat / 4 % 4 : Nat) = start ∧ (b.toNat % 4 + 1 : Nat) = count) ∧
    ∀ (o p : OpcodeId) (start count start' count' : Int) (b : Byte),
      o.registerAccess = true → p.registerAccess = true →
      buildCommand byteOf o start count = .ok b → buildCommand byteOf p start' count' = .ok b →
      o = p ∧ start = start' ∧ count = count'

/-! ### Wire commands -/

/-- The wire commands RESET, SHUTDOWN, START and READ_DATA put their opcode byte on the wire, READ_DATA with a sample
frame to follow and the others with nothing, and change nothing else; in particular RESET leaves the shadow registers
as they are. Derived: R83 to R86, R50, D24; the `wire` record is the model's, log entry 4. -/
def Obligations.NonAddressedCommandsTouchNoState : Prop :=
  ∀ s : State,
    exec .cmdReset s = .next { s with wire := some ⟨Config.opcodeByte .reset, .nothing⟩ } ∧
    exec .cmdShutdown s = .next { s with wire := some ⟨Config.opcodeByte .shutdown, .nothing⟩ } ∧
    exec .cmdStart s = .next { s with wire := some ⟨Config.opcodeByte .start, .nothing⟩ } ∧
    exec .cmdReadData s = .next { s with wire := some ⟨Config.opcodeByte .readData, .sampleFromChip⟩ }

/-- READ_REG and WRITE_REG put `OPC | (start << 2) | (count - 1)` on the wire, READ_REG with `count` bytes to be read
and WRITE_REG with the registers `start` to `start+count-1` in ascending order, and change nothing else; an address
pair out of range is BCMD's InvalidAddress, and a WRITE_REG past register 3 is EPAY's. Derived: R87, R88 with R82 and
R104; the bound on `start + count` is a decision (D8) and the `wire` record is the model's, log entry 4. -/
def Obligations.RegisterCommandsTouchNoState : Prop :=
  ∀ (start count : Nat) (s : State),
    (start ≤ 3 → 1 ≤ count → count ≤ 4 →
      ∃ b : Byte, exec (.cmdReadReg start count) s = .next { s with wire := some ⟨b, .registersFromChip count⟩ } ∧
        b.toNat = (Config.opcodeByte .readReg).toNat ||| (start <<< 2) ||| (count - 1)) ∧
    (1 ≤ count → start + count ≤ 4 →
      ∃ (b : Byte) (l : List Byte),
        exec (.cmdWriteReg start count) s = .next { s with wire := some ⟨b, .payloadToChip l⟩ } ∧
        b.toNat = (Config.opcodeByte .writeReg).toNat ||| (start <<< 2) ||| (count - 1) ∧
        l.length = count ∧
        ∀ (k : Nat) (a : Fin 4), k < count → a.val = start + k → l[k]? = some (s.block.regs.get a)) ∧
    (3 < start ∨ count < 1 ∨ 4 < count →
      exec (.cmdReadReg start count) s = .next { s with response := some (.err .invalidAddress) }) ∧
    (3 < start ∨ count < 1 ∨ 4 < count ∨ 4 < start + count →
      exec (.cmdWriteReg start count) s = .next { s with response := some (.err .invalidAddress) })

/-- The byte that goes on the wire is the one presented, and the number of bytes that follow it is known from it
alone: `nn + 1` for a register-access command, W/8 for READ_DATA, 0 otherwise. A WRITE_REG past register 3 has no
payload: it ends in InvalidAddress and sends nothing. Derived: R50, R88; that the last case sends nothing is the
model's reading of R88 and R89, log entry 4. -/
def Obligations.FollowingBytesKnownFromByte : Prop :=
  ∀ (c : Byte) (i : Instr) (s : State), decode (.command c) = .ok i →
    (c &&& 0xF0 = Config.opcodeByte .writeReg ∧ 4 < c.toNat / 4 % 4 + (c.toNat % 4 + 1) →
      exec i s = .next { s with response := some (.err .invalidAddress) }) ∧
    (¬ (c &&& 0xF0 = Config.opcodeByte .writeReg ∧ 4 < c.toNat / 4 % 4 + (c.toNat % 4 + 1)) →
      ∃ f : Follows, exec i s = .next { s with wire := some ⟨c, f⟩ } ∧
        ∀ w : Nat, f.byteCount w =
          if c = Config.opcodeByte .readData then w / 8
          else if c &&& 0xF0 = Config.opcodeByte .readReg ∨ c &&& 0xF0 = Config.opcodeByte .writeReg then
            c.toNat % 4 + 1
          else 0)

/-! ### Frame Codec -/

/-- A frame of exactly W/8 bytes is the two's-complement number its bytes spell, most significant first; W other than
16 or 24 is OutOfRange, checked first, too few bytes are FrameTooShort, too many are refused; nothing but the
response is touched. Derived: R100 for bytes and R102; the width check and the refusal of an over-long input are
decisions (D9, log entry 13). -/
def Obligations.DsmpDecodesByteFrame : Prop :=
  ∀ (bytes : List Byte) (w : Int) (s : State),
    (w ≠ 16 → w ≠ 24 → exec (.dsmp bytes w) s = .next { s with response := some (.err .outOfRange) }) ∧
    ((w = 16 ∧ bytes.length < 2) ∨ (w = 24 ∧ bytes.length < 3) →
      exec (.dsmp bytes w) s = .next { s with response := some (.err .frameTooShort) }) ∧
    ((w = 16 ∧ 2 < bytes.length) ∨ (w = 24 ∧ 3 < bytes.length) →
      exec (.dsmp bytes w) s = .refused .overlongFrame) ∧
    (∀ b0 b1 : Byte, w = 16 → bytes = [b0, b1] →
      exec (.dsmp bytes w) s = .next { s with response := some (.ok (.int
        (if b0.toNat * 256 + b1.toNat < 2 ^ 15 then ((b0.toNat * 256 + b1.toNat : Nat) : Int)
         else ((b0.toNat * 256 + b1.toNat : Nat) : Int) - 2 ^ 16))) }) ∧
    (∀ b0 b1 b2 : Byte, w = 24 → bytes = [b0, b1, b2] →
      exec (.dsmp bytes w) s = .next { s with response := some (.ok (.int
        (if b0.toNat * 65536 + b1.toNat * 256 + b2.toNat < 2 ^ 23
         then ((b0.toNat * 65536 + b1.toNat * 256 + b2.toNat : Nat) : Int)
         else ((b0.toNat * 65536 + b1.toNat * 256 + b2.toNat : Nat) : Int) - 2 ^ 24))) })

/-- A frame of exactly W bits is the two's-complement number whose bit k, counted from the first received, has weight
2^(W-1-k); the checks are those of DSMP; nothing but the response is touched. Derived: R103 with R54 and R100;
decisions as for DSMP (D9, log entry 13). -/
def Obligations.DsmpbDecodesBitFrame : Prop :=
  ∀ (bits : List Bool) (w : Int) (s : State),
    (w ≠ 16 → w ≠ 24 → exec (.dsmpb bits w) s = .next { s with response := some (.err .outOfRange) }) ∧
    (w = 16 ∨ w = 24 → (bits.length : Int) < w →
      exec (.dsmpb bits w) s = .next { s with response := some (.err .frameTooShort) }) ∧
    (w = 16 ∨ w = 24 → w < (bits.length : Int) → exec (.dsmpb bits w) s = .refused .overlongFrame) ∧
    (∀ (n u : Nat), n = 16 ∨ n = 24 → w = n → bits.length = n →
      u = ((List.range n).map fun k => (bits.getD k false).toNat * 2 ^ (n - 1 - k)).sum →
      exec (.dsmpb bits w) s = .next { s with response := some (.ok (.int
        (if u < 2 ^ (n - 1) then (u : Int) else (u : Int) - 2 ^ n))) })

/-- R101: A frame whose code is a 24-bit number decodes to the code less 2^24 when bit 23 is set and to the code when
it is clear, and one whose code is a 16-bit number to the code less 2^16 or to the code by bit 15; received as bytes
(DSMP) or as bits (DSMPB). What R101 marks as derived is Obligations.FrameDecodingIsBijection. -/
def Obligations.SignExtensionLaw : Prop :=
  ∀ (n c : Nat) (bytes : List Byte) (bits : List Bool) (s : State), n = 24 ∨ n = 16 →
    (8 * bytes.length = n → c = bytes.foldl (fun u b => u * 256 + b.toNat) 0 →
      exec (.dsmp bytes n) s = .next { s with response := some (.ok (.int
        (if c.testBit (n - 1) = true then (c : Int) - 2 ^ n else (c : Int)))) }) ∧
    (bits.length = n → c = bits.foldl (fun u b => u * 2 + b.toNat) 0 →
      exec (.dsmpb bits n) s = .next { s with response := some (.ok (.int
        (if c.testBit (n - 1) = true then (c : Int) - 2 ^ n else (c : Int)))) })

/-- For both widths, every frame of W/8 bytes decodes to a number r of the signed W-bit range with `r mod 2^W` the
unsigned code, and every number of that range is the result of exactly one frame. Derived: the consequences R101
lists, which the spec marks as its own inference from R100. -/
def Obligations.FrameDecodingIsBijection : Prop :=
  ∀ (n : Nat) (s : State), n = 2 ∨ n = 3 →
    (∀ bytes : List Byte, bytes.length = n →
      ∃ r : Int, exec (.dsmp bytes (8 * n)) s = .next { s with response := some (.ok (.int r)) } ∧
        -(2 ^ (8 * n - 1)) ≤ r ∧ r ≤ 2 ^ (8 * n - 1) - 1 ∧
        r % 2 ^ (8 * n) = ((bytes.foldl (fun (u : Nat) (b : Byte) => u * 256 + b.toNat) 0 : Nat) : Int)) ∧
    (∀ r : Int, -(2 ^ (8 * n - 1)) ≤ r → r ≤ 2 ^ (8 * n - 1) - 1 →
      ∃ bytes : List Byte,
        exec (.dsmp bytes (8 * n)) s = .next { s with response := some (.ok (.int r)) } ∧
        ∀ other : List Byte,
          exec (.dsmp other (8 * n)) s = .next { s with response := some (.ok (.int r)) } → other = bytes)

/-- DSMPB on the bits of a frame, first bit as bit 7 of the first byte, answers as DSMP on its bytes. Derived: R103,
which marks the sentence as its own inference from R100. -/
def Obligations.BitFormAgreesWithByteForm : Prop :=
  ∀ (bytes : List Byte) (w : Int) (s : State), (8 * bytes.length : Int) = w →
    exec (.dsmpb (bytes.flatMap fun b => (List.range 8).map fun k => b.getLsbD (7 - k)) w) s = exec (.dsmp bytes w) s

/-- EPAY answers the registers `start` to `start+count-1` in ascending order, fails with InvalidAddress when the pair
is out of range or the burst runs past register 3, and touches nothing but the response. Derived: R104, R32; the
bound on `start + count` is a decision (D8, log entry 13). -/
def Obligations.EpayReturnsRegisters : Prop :=
  ∀ (start count : Int) (s : State),
    (0 ≤ start → 1 ≤ count → start + count ≤ 4 →
      ∃ l : List Byte, exec (.epay start count) s = .next { s with response := some (.ok (.bytes l)) } ∧
        (l.length : Int) = count ∧
        ∀ (k : Nat) (a : Fin 4), (k : Int) < count → (a.val : Int) = start + k →
          l[k]? = some (s.block.regs.get a)) ∧
    (start < 0 ∨ 3 < start ∨ count < 1 ∨ 4 < count ∨ 4 < start + count →
      exec (.epay start count) s = .next { s with response := some (.err .invalidAddress) })

/-- LPAY writes its bytes to the registers `start` to `start+count-1` and leaves the other registers and the rest of
the block alone; InvalidAddress comes before FrameTooShort; too many bytes are refused; a failing LPAY changes
nothing but the response. Derived: R105, R32; the operation and its errors are the spec's own (D25, D8, D9, D14, log
entry 13). -/
def Obligations.LpayLoadsRegisters : Prop :=
  ∀ (start count : Int) (bytes : List Byte) (s : State),
    (0 ≤ start → 1 ≤ count → start + count ≤ 4 → (bytes.length : Int) = count →
      ∃ r : Regs, exec (.lpay start count bytes) s =
          .next { s with block := { s.block with regs := r }, response := some (.ok .none) } ∧
        (∀ (k : Nat) (a : Fin 4), (k : Int) < count → (a.val : Int) = start + k → some (r.get a) = bytes[k]?) ∧
        ∀ a : Fin 4, (a.val : Int) < start ∨ start + count ≤ (a.val : Int) → r.get a = s.block.regs.get a) ∧
    (start < 0 ∨ 3 < start ∨ count < 1 ∨ 4 < count ∨ 4 < start + count →
      exec (.lpay start count bytes) s = .next { s with response := some (.err .invalidAddress) }) ∧
    (0 ≤ start → 1 ≤ count → start + count ≤ 4 → (bytes.length : Int) < count →
      exec (.lpay start count bytes) s = .next { s with response := some (.err .frameTooShort) }) ∧
    (0 ≤ start → 1 ≤ count → start + count ≤ 4 → count < (bytes.length : Int) →
      exec (.lpay start count bytes) s = .refused .overlongPayload)

/-- `LPAY s, c, b` followed by `EPAY s, c` returns b. Derived: R105, which marks the sentence as its own inference
from R104; LPAY is the spec's addition (D25). -/
def Obligations.LpayThenEpayReturnsPayload : Prop :=
  ∀ (start count : Int) (bytes : List Byte) (s : State),
    0 ≤ start → 1 ≤ count → start + count ≤ 4 → (bytes.length : Int) = count →
    ∃ t, runUntilErr [.lpay start count bytes, .epay start count] s = .next t ∧
      t.response = some (.ok (.bytes bytes))

/-! ### Averaging -/

/-- R115: ACLR sets the sum and the count to 0, never fails, and changes nothing else of the block. -/
def Obligations.AclrEmptiesAccumulator : Prop :=
  ∀ s : State, exec .aclr s =
    .next { s with block := { s.block with accSum := 0, accN := 0 }, response := some (.ok .none) }

/-- AADD adds a sample in [-2^23, 2^23 - 1] to the sum, exactly, and 1 to the count, and changes nothing else of the
block; any other sample is OutOfRange and changes nothing but the response. Derived: R116; the range check and the
unbounded sum are decisions (D21, log entry 15). -/
def Obligations.AaddAccumulatesSample : Prop :=
  ∀ (smp : Int) (s : State),
    (-(2 ^ 23) ≤ smp → smp ≤ 2 ^ 23 - 1 →
      exec (.aadd smp) s = .next { s with
        block := { s.block with accSum := s.block.accSum + smp, accN := s.block.accN + 1 },
        response := some (.ok .none) }) ∧
    (smp < -(2 ^ 23) ∨ 2 ^ 23 - 1 < smp →
      exec (.aadd smp) s = .next { s with response := some (.err .outOfRange) })

/-- AMEAN answers the sum divided by the count, rounded once, when the count is not 0, and is OutOfRange otherwise;
it leaves the accumulator as it is and touches nothing but the response. Derived: R117; the error of an empty
accumulator is a decision (D21). -/
def Obligations.AmeanDividesOnce : Prop :=
  ∀ s : State,
    (s.block.accN ≠ 0 → exec .amean s = .next { s with
      response := some (.ok (.num (Config.rnd ((s.block.accSum : Rat) / (s.block.accN : Rat))))) }) ∧
    (s.block.accN = 0 → exec .amean s = .next { s with response := some (.err .outOfRange) })

/-- AVG of K samples of 24 bits, from any state, answers their sum divided by K, rounded once, and leaves the sum and
the count in the accumulator and the rest of the block as it was; of no sample it is OutOfRange. Derived: the
expansion of R61 and R115 to R118; D21 for the empty list. -/
def Obligations.AverageIsSumDividedOnce : Prop :=
  ∀ (l : List Int) (s : State), (∀ z ∈ l, -(2 ^ 23) ≤ z ∧ z ≤ 2 ^ 23 - 1) →
    runUntilErr (Pseudo.avg l).expand s = .next { s with
      block := { s.block with accSum := l.sum, accN := l.length },
      response := some (if l.length = 0 then .err .outOfRange
        else .ok (.num (Config.rnd ((l.sum : Rat) / (l.length : Rat))))) }

/-- Performing AADD on the samples of a list and on those of a permutation of it leaves the same state. Derived: a
corner case of R116. -/
def Obligations.AaddOrderIrrelevant : Prop :=
  ∀ (l m : List Int) (s : State), l.Perm m → (∀ z ∈ l, -(2 ^ 23) ≤ z ∧ z ≤ 2 ^ 23 - 1) →
    ∃ t, runUntilErr (l.map .aadd) s = .next t ∧ runUntilErr (m.map .aadd) s = .next t

/-- A sample that DSMP or DSMPB answers can be given to AADD, which adds and counts it. Derived: R101, R116, R136
(the order of the pipeline). -/
def Obligations.DecodedSamplesAccumulate : Prop :=
  ∀ (i : Instr) (s t : State) (z : Int), (∃ bytes w, i = .dsmp bytes w) ∨ (∃ bits w, i = .dsmpb bits w) →
    exec i s = .next t → t.response = some (.ok (.int z)) →
    exec (.aadd z) t = .next { t with
      block := { t.block with accSum := t.block.accSum + z, accN := t.block.accN + 1 },
      response := some (.ok .none) }

/-! ### Calibration -/

/-- RZERO stores the no-load code and sets its flag, never fails, and leaves the span, the tare, the accumulator and
the registers as they are. Derived: R131; that the tare stays is a decision (D18). -/
def Obligations.RzeroRecordsZero : Prop :=
  ∀ (raw : Rat) (s : State), exec (.rzero raw) s =
    .next { s with block := { s.block with zeroCode := raw, zeroValid := true }, response := some (.ok .none) }

/-- RSPAN stores the loaded code, the mass times the scale of its unit (kg 1, g 1/1000, mg 1/10^6, ug 1/10^9),
rounded once, and the unit, and sets its flag; it never fails, and leaves the zero, the tare, the accumulator and the
registers as they are. Derived: R132 with R126; that every mass is accepted and that the tare stays are decisions
(D26, D18). -/
def Obligations.RspanRecordsSpan : Prop :=
  ∀ (raw m : Rat) (s : State) (u : MassUnit) (scale : Rat),
    (u, scale) ∈ [(MassUnit.kg, (1 : Rat)), (.g, 1 / 1000), (.mg, 1 / 1000000), (.ug, 1 / 1000000000)] →
    exec (.rspan raw m u) s = .next { s with
      block := { s.block with spanCode := raw, calMassKg := Config.rnd (m * scale), calUnit := u, spanValid := true },
      response := some (.ok .none) }

/-- CTARE stores slope * raw + intercept as the tare, rounded after every operation, and changes nothing else of the
block, when both points are recorded with different codes; CalibrationIncomplete comes before DivisionByZero; a
failing CTARE changes nothing but the response. Derived: R133 with R127 to R130; the formula and the failures are
decisions (D17, D14), as is rounding each operation (D11). -/
def Obligations.CtareStoresUntaredMass : Prop :=
  ∀ (raw : Rat) (s : State),
    (∀ slope intercept : Rat, s.block.zeroValid = true → s.block.spanValid = true →
      s.block.spanCode ≠ s.block.zeroCode →
      slope = Config.rnd (s.block.calMassKg / Config.rnd (s.block.spanCode - s.block.zeroCode)) →
      intercept = Config.rnd (Config.rnd (0 - slope) * s.block.zeroCode) →
      exec (.ctare raw) s = .next { s with
        block := { s.block with tareKg := Config.rnd (Config.rnd (slope * raw) + intercept) },
        response := some (.ok .none) }) ∧
    (s.block.zeroValid = false ∨ s.block.spanValid = false →
      exec (.ctare raw) s = .next { s with response := some (.err .calibrationIncomplete) }) ∧
    (s.block.zeroValid = true → s.block.spanValid = true → s.block.spanCode = s.block.zeroCode →
      exec (.ctare raw) s = .next { s with response := some (.err .divisionByZero) })

/-- R127, R128, R134: TMASS answers slope * raw + intercept - tare, rounded after every operation, with slope = mass
/ (span - zero) and intercept = (0 - slope) * zero, when both points are recorded with different codes, and touches
nothing but the response; it fails with CalibrationIncomplete unless both are recorded, and then with DivisionByZero
if the codes are equal. That the number is a mass in kilograms is D19; the formalised clauses do not rest on it. -/
def Obligations.TmassConvertsToMass : Prop :=
  ∀ (raw : Rat) (s : State),
    (∀ slope intercept : Rat, s.block.zeroValid = true → s.block.spanValid = true →
      s.block.spanCode ≠ s.block.zeroCode →
      slope = Config.rnd (s.block.calMassKg / Config.rnd (s.block.spanCode - s.block.zeroCode)) →
      intercept = Config.rnd (Config.rnd (0 - slope) * s.block.zeroCode) →
      exec (.tmass raw) s = .next { s with response := some (.ok (.num
        (Config.rnd (Config.rnd (Config.rnd (slope * raw) + intercept) - s.block.tareKg)))) }) ∧
    (s.block.zeroValid = false ∨ s.block.spanValid = false →
      exec (.tmass raw) s = .next { s with response := some (.err .calibrationIncomplete) }) ∧
    (s.block.zeroValid = true → s.block.spanValid = true → s.block.spanCode = s.block.zeroCode →
      exec (.tmass raw) s = .next { s with response := some (.err .divisionByZero) })

/-- TVOLT answers (raw / 2^(bits-1)) * (vref / gain), rounded after every operation, for bits 16 or 24 and a gain of
1, 2, 4, ..., 128, whatever raw and vref are, and is OutOfRange otherwise; it touches nothing but the response.
Derived: R135; the two checks are decisions (D20). -/
def Obligations.TvoltConvertsToVoltage : Prop :=
  ∀ (raw vref : Rat) (bits gain : Int) (s : State),
    (∀ scale : Rat, (bits, scale) ∈ [((16 : Int), (32768 : Rat)), (24, 8388608)] →
      gain ∈ [(1 : Int), 2, 4, 8, 16, 32, 64, 128] →
      exec (.tvolt raw bits vref gain) s = .next { s with response := some (.ok (.num
        (Config.rnd (Config.rnd (raw / scale) * Config.rnd (vref / (gain : Rat)))))) }) ∧
    ((bits ≠ 16 ∧ bits ≠ 24) ∨ gain ∉ [(1 : Int), 2, 4, 8, 16, 32, 64, 128] →
      exec (.tvolt raw bits vref gain) s = .next { s with response := some (.err .outOfRange) })

/-- Whatever the rounding function is, the mean, the tare, the mass and the voltage fail for the same operands with
the same kind. Derived: a sentence of R125. -/
def Obligations.ErrorsIndependentOfRounding : Prop :=
  ∀ (rnd rnd' : Rat → Rat) (b : Block) (k : ErrorKind),
    (b.mean rnd = .error k ↔ b.mean rnd' = .error k) ∧
    (∀ raw, b.tareOf rnd raw = .error k ↔ b.tareOf rnd' raw = .error k) ∧
    (∀ raw, b.toMass rnd raw = .error k ↔ b.toMass rnd' raw = .error k) ∧
    (∀ raw bits vref gain, toVoltage rnd raw bits vref gain = .error k ↔ toVoltage rnd' raw bits vref gain = .error k)

/-- With both points recorded and different codes, the mass of the zero code is minus the tare, the mass of the span
code is the calibration mass less the tare, and every mass lies on the line through the two points, less the tare.
Derived: the corner cases of R134, under exact arithmetic; that `Config.rnd` is exact is the model's choice (D11, log
entry 8) and is a hypothesis here. -/
def Obligations.MassIsTwoPointLine : Prop :=
  (∀ x, Config.rnd x = x) → ∀ s : State, s.block.zeroValid = true → s.block.spanValid = true →
    s.block.spanCode ≠ s.block.zeroCode →
    exec (.tmass s.block.zeroCode) s = .next { s with response := some (.ok (.num (0 - s.block.tareKg))) } ∧
    exec (.tmass s.block.spanCode) s =
      .next { s with response := some (.ok (.num (s.block.calMassKg - s.block.tareKg))) } ∧
    ∀ (raw q : Rat), exec (.tmass raw) s = .next { s with response := some (.ok (.num q)) } →
      (q + s.block.tareKg) * (s.block.spanCode - s.block.zeroCode) =
        s.block.calMassKg * (raw - s.block.zeroCode)

/-- A TMASS of the code just tared answers 0, whatever the old tare was, when both points are recorded with different
codes. Derived: the corner cases of R133 (D17), under exact arithmetic (D11, log entry 8, a hypothesis here). -/
def Obligations.TareZeroesItsCode : Prop :=
  (∀ x, Config.rnd x = x) → ∀ (raw : Rat) (s : State), s.block.zeroValid = true → s.block.spanValid = true →
    s.block.spanCode ≠ s.block.zeroCode →
    ∃ t, runUntilErr [.ctare raw, .tmass raw] s = .next t ∧ t.response = some (.ok (.num 0))

/-- When both points are recorded with different codes, TMASS answers a function of the code alone, and the mean of
its values on a non-empty list of codes is its value on the mean of the list. Derived: R185 (D22), which marks the
sentence as its inference from R134, under exact arithmetic (D11, log entry 8, a hypothesis here). -/
def Obligations.MeanOfMassesIsMassOfMean : Prop :=
  (∀ x, Config.rnd x = x) → ∀ (l : List Rat) (s : State), l ≠ [] → s.block.zeroValid = true →
    s.block.spanValid = true → s.block.spanCode ≠ s.block.zeroCode →
    ∃ mass : Rat → Rat,
      (∀ raw, exec (.tmass raw) s = .next { s with response := some (.ok (.num (mass raw))) }) ∧
      (l.map mass).sum / (l.length : Rat) = mass (l.sum / (l.length : Rat))

/-- RZERO and RSPAN of one code both succeed, in either order, from any state, with any mass, and TMASS and CTARE
then fail with DivisionByZero. Derived: R16 with R130; that CTARE fails as TMASS does (R133) and that RSPAN accepts
every mass (R132) are the spec's decisions D17 and D26, log entry 19. -/
def Obligations.EqualCodesFailAtConversion : Prop :=
  ∀ (c m raw : Rat) (u : MassUnit) (s : State),
    ∃ a b, runUntilErr [.rzero c, .rspan c m u] s = .next a ∧ a.response = some (.ok .none) ∧
      runUntilErr [.rspan c m u, .rzero c] s = .next b ∧ b.response = some (.ok .none) ∧
      exec (.tmass raw) a = .next { a with response := some (.err .divisionByZero) } ∧
      exec (.ctare raw) a = .next { a with response := some (.err .divisionByZero) } ∧
      exec (.tmass raw) b = .next { b with response := some (.err .divisionByZero) } ∧
      exec (.ctare raw) b = .next { b with response := some (.err .divisionByZero) }

/-! ### Whole-machine rules -/

/-- When an instruction ends with an error response standing, no state element of the block has changed, and a host
operation has changed nothing but the response; the first clause also covers a wire command issued while an old error
response still stands. Derived: R161, which the spec gives as its own reading (D15). -/
def Obligations.ErrorChangesNothing : Prop :=
  ∀ (i : Instr) (s t : State) (k : ErrorKind), exec i s = .next t → t.response = some (.err k) →
    t.block = s.block ∧ t.pending = s.pending ∧ (i.isWire = false → t = { s with response := some (.err k) })

/-- R162: After a host operation that ended with an error, every host operation is performed exactly as it would have
been in the state before the failed one. -/
def Obligations.AfterErrorAsIfNotIssued : Prop :=
  ∀ (i j : Instr) (s t : State) (k : ErrorKind), i.isWire = false → j.isWire = false →
    exec i s = .next t → t.response = some (.err k) → exec j t = exec j s

/-- A host operation raises only the kinds the table lists for it; no operation of the table raises BusTimeout or
ProtocolError; the kinds are numbered 1 to 7 in the source's order, and success is 0. Derived: R150 and R151's table;
the numbers are a decision (D13). -/
def Obligations.ErrorsOnlyAsListed : Prop :=
  (∀ (i : Instr) (s t : State) (k : ErrorKind), i.isWire = false → exec i s = .next t →
    t.response = some (.err k) → k ∈ mayRaise i) ∧
  (∀ i : Instr, ErrorKind.busTimeout ∉ mayRaise i ∧ ErrorKind.protocolError ∉ mayRaise i) ∧
  [ErrorKind.outOfRange, .invalidAddress, .frameTooShort, .busTimeout, .protocolError, .calibrationIncomplete,
    .divisionByZero].map ErrorKind.code = [1, 2, 3, 4, 5, 6, 7] ∧
  (∀ r : Result, (Response.ok r).status = 0)

/-- Neither an instruction nor a step ever faults: the checks of EPAY, LPAY and WRITE_REG keep every access inside
the register space. Derived: R33, R34, R37, R161. -/
def Obligations.NothingFaults : Prop :=
  (∀ (i : Instr) (s : State) (r : Fault), exec i s ≠ .fault r) ∧ ∀ (s : State) (r : Fault), step s ≠ .fault r

/-- Every host request ends with a response in one step, except an over-long input to DSMP, DSMPB or LPAY, which has
no meaning and is refused. Derived: R188, and R100, R105, U4 for the refused inputs (D9, log entry 13). -/
def Obligations.EveryRequestAnsweredUnlessOverlong : Prop :=
  ∀ (i : Instr) (s : State), i.isWire = false →
    (¬ Overlong i → ∃ t r, exec i s = .next t ∧ t.response = some r) ∧
    (Overlong i → exec i s = .refused .overlongFrame ∨ exec i s = .refused .overlongPayload)

/-- An instruction that changes a register is SETF or LPAY, the zero code or flag RZERO, the span code or flag, the
mass or the unit RSPAN, the tare CTARE, the sum or the count ACLR or AADD; no instruction touches what the host is
still to present. Derived: the written-by column of R10's table. -/
def Obligations.ElementsWrittenOnlyByTheirOperations : Prop :=
  ∀ (i : Instr) (s t : State), exec i s = .next t →
    t.pending = s.pending ∧
    (t.block.regs ≠ s.block.regs → (∃ f v, i = .setf f v) ∨ ∃ a n l, i = .lpay a n l) ∧
    (t.block.zeroCode ≠ s.block.zeroCode ∨ t.block.zeroValid ≠ s.block.zeroValid → ∃ raw, i = .rzero raw) ∧
    (t.block.spanCode ≠ s.block.spanCode ∨ t.block.spanValid ≠ s.block.spanValid ∨
      t.block.calMassKg ≠ s.block.calMassKg ∨ t.block.calUnit ≠ s.block.calUnit → ∃ raw m u, i = .rspan raw m u) ∧
    (t.block.tareKg ≠ s.block.tareKg → ∃ raw, i = .ctare raw) ∧
    (t.block.accSum ≠ s.block.accSum ∨ t.block.accN ≠ s.block.accN → i = .aclr ∨ ∃ smp, i = .aadd smp)

/-- ENCF, DECF, BCMD, DSMP, DSMPB and TVOLT answer the same in every state and change nothing but the response, or
are refused in every state. Derived: the sentence of R10 on the pure operations. -/
def Obligations.PureOperationsIgnoreState : Prop :=
  ∀ i : Instr, isPureOp i = true →
    (∃ r : Response, ∀ s : State, exec i s = .next { s with response := some r }) ∨
    (∃ q : Refusal, ∀ s : State, exec i s = .refused q)

/-- GETF, EPAY, AMEAN and TMASS change no state element, and repeating one gives the same response. Derived: a
sentence of R36. -/
def Obligations.ReadsAreIdempotent : Prop :=
  ∀ (i : Instr) (s t : State),
    (∃ f, i = .getf f) ∨ (∃ a n, i = .epay a n) ∨ i = .amean ∨ (∃ raw, i = .tmass raw) →
    exec i s = .next t → t.block = s.block ∧ exec i t = .next t

/-- In every step, a flag that falls falls by the reset event, a flag that rises rises by its recording operation,
and the recording operation leaves its flag set. Derived: R17, which the spec marks as its inference from R129 and
R130. -/
def Obligations.FlagsSetByRecordingClearedByReset : Prop :=
  ∀ s t : State, step s = .next t →
    (s.block.zeroValid = true → t.block.zeroValid = false → ∃ rest, s.pending = .resetEvent :: rest) ∧
    (s.block.spanValid = true → t.block.spanValid = false → ∃ rest, s.pending = .resetEvent :: rest) ∧
    (s.block.zeroValid = false → t.block.zeroValid = true →
      ∃ e rest raw, s.pending = .present e :: rest ∧ decode e = .ok (.rzero raw)) ∧
    (s.block.spanValid = false → t.block.spanValid = true →
      ∃ e rest raw m u, s.pending = .present e :: rest ∧ decode e = .ok (.rspan raw m u)) ∧
    (∀ e rest raw, s.pending = .present e :: rest → decode e = .ok (.rzero raw) → t.block.zeroValid = true) ∧
    (∀ e rest raw m u, s.pending = .present e :: rest → decode e = .ok (.rspan raw m u) →
      t.block.spanValid = true)

/-- Two states that agree on everything readable take steps no host can tell apart, and agree on everything readable
afterwards. Derived: R17, R22, U5. So no claim about responses rests on the reset values of log entry 9. -/
def Obligations.UnreadableElementsDoNotMatter : Prop :=
  ∀ s t : State, s.SameReadable t → SameOutcome (step s) (step t)

/-- Every step keeps the invariant: the accumulated sum stays in [-K*2^23, K*(2^23 - 1)] for a count K, and a tare
other than zero comes with both calibration flags set. Derived: R18 (D21), R22, R133 (D17). -/
def Obligations.StepKeepsInvariant : Prop :=
  ∀ s t : State, s.Inv → step s = .next t → t.Inv

/-- The invariant of StepKeepsInvariant holds of the state after reset with any list of things for the host to
present. Derived: R18, R22. -/
def Obligations.ResetSatisfiesInvariant : Prop :=
  ∀ l : List HostInput, State.Inv { State.reset with pending := l }
end

