-- ==== Sys2Proof/Laws/Decode.lean ====
section
/-! SUPPORT. Each operand form reads back what the encoder writes, and writes back what the decoder reads
(`30_encoding.md` R53, R55 to R57). -/

namespace Sys2Proof

/-! ### Bytes, bits and lists of them -/

@[simp] theorem byteOperand_toNat (b : Byte) : byteOperand (b.toNat : Int) = .ok b := by
  unfold byteOperand
  rw [if_pos (by omega)]
  simp

theorem byteOperand_ok {z : Int} {b : Byte} (h : byteOperand z = .ok b) : z = (b.toNat : Int) := by
  unfold byteOperand at h
  split at h
  · cases h
    rw [BitVec.toNat_ofNat]
    omega
  · cases h

@[simp] theorem bitOperand_toNat (b : Bool) : bitOperand (b.toNat : Int) = .ok b := by
  cases b <;> rfl

theorem bitOperand_ok {z : Int} {b : Bool} (h : bitOperand z = .ok b) : z = (b.toNat : Int) := by
  unfold bitOperand at h
  split at h
  · cases h
    assumption
  · split at h
    · cases h
      assumption
    · cases h

theorem listOperand_map {α : Type} {one : Int → Except DecodeError α} {value : α → Int}
    (h : ∀ a, one (value a) = .ok a) (l : List α) : listOperand one (l.map value) = .ok l := by
  induction l with
  | nil => rfl
  | cons a l ih => simp [listOperand, h, ih]

theorem listOperand_ok {α : Type} {one : Int → Except DecodeError α} {value : α → Int}
    (h : ∀ z a, one z = .ok a → z = value a) {zs : List Int} {l : List α} (hl : listOperand one zs = .ok l) :
    zs = l.map value := by
  induction zs generalizing l with
  | nil =>
    cases hl
    rfl
  | cons z zs ih =>
    unfold listOperand at hl
    cases hz : one z with
    | error e => simp [hz] at hl
    | ok a =>
      cases hzs : listOperand one zs with
      | error e => simp [hz, hzs] at hl
      | ok as =>
        simp only [hz, hzs, Except.ok.injEq] at hl
        subst hl
        rw [h z a hz, ih hzs, List.map_cons]

/-! ### Enumerated operands -/

@[simp] theorem fieldOperand_id (f : FieldId) : fieldOperand f.id = .ok f := by
  cases f <;> rfl

@[simp] theorem opcodeOperand_id (o : OpcodeId) : opcodeOperand o.id = .ok o := by
  cases o <;> rfl

@[simp] theorem unitOperand_code (u : MassUnit) : unitOperand u.code = .ok u := by
  cases u <;> rfl

/-- An enumerated operand is read exactly when it is a number its table names. -/
theorem enumOperand_ok {α : Type} {table : Nat → Option α} {bad : Int → DecodeError} {z : Int} {a : α}
    (h : enumOperand table bad z = .ok a) : ∃ n : Nat, z = n ∧ table n = some a := by
  cases z with
  | ofNat n =>
    refine ⟨n, rfl, ?_⟩
    unfold enumOperand at h
    cases ht : table n with
    | none => simp [ht] at h
    | some b => simpa [ht] using h
  | negSucc n => simp [enumOperand] at h

theorem fieldOperand_ok {z : Int} {f : FieldId} (h : fieldOperand z = .ok f) : z = f.id := by
  obtain ⟨n, rfl, hn⟩ := enumOperand_ok h
  unfold fieldWithId at hn
  split at hn <;> cases hn <;> rfl

theorem opcodeOperand_ok {z : Int} {o : OpcodeId} (h : opcodeOperand z = .ok o) : z = o.id := by
  obtain ⟨n, rfl, hn⟩ := enumOperand_ok h
  unfold opcodeWithId at hn
  split at hn <;> cases hn <;> rfl

theorem unitOperand_ok {z : Int} {u : MassUnit} (h : unitOperand z = .ok u) : z = u.code := by
  obtain ⟨n, rfl, hn⟩ := enumOperand_ok h
  unfold unitWithCode at hn
  split at hn <;> cases hn <;> rfl

/-! ### Command bytes -/

theorem startOfCommand_eq (c : Byte) : startOfCommand c = c.toNat / 4 % 4 := by
  rw [startOfCommand, BitVec.extractLsb'_toNat, Nat.shiftRight_eq_div_pow]

theorem countOfCommand_eq (c : Byte) : countOfCommand c = c.toNat % 4 + 1 := by
  rw [countOfCommand, BitVec.extractLsb'_toNat, Nat.shiftRight_eq_div_pow]
  simp

/-- The packed byte carries its operands in bits 3:2 and 1:0 and the opcode's high nibble above them (R47, R53). -/
theorem addressedByte_fields (op : Byte) (start count : Nat) (hs : start ≤ 3) (h1 : 1 ≤ count) (h4 : count ≤ 4) :
    startOfCommand (addressedByte op start count) = start ∧
    countOfCommand (addressedByte op start count) = count ∧
    addressedByte op start count &&& 0xF0 = op &&& 0xF0 := by
  have key : ∀ (o : Byte) (a b : Fin 4),
      startOfCommand (addressedByte o (a.val : Int) ((b.val + 1 : Nat) : Int)) = a.val ∧
      countOfCommand (addressedByte o (a.val : Int) ((b.val + 1 : Nat) : Int)) = b.val + 1 ∧
      addressedByte o (a.val : Int) ((b.val + 1 : Nat) : Int) &&& 0xF0 = o &&& 0xF0 := by
    decide +kernel
  obtain ⟨n, rfl⟩ : ∃ n, count = n + 1 := ⟨count - 1, by omega⟩
  exact key op ⟨start, by omega⟩ ⟨n, by omega⟩

end Sys2Proof
end

