-- ==== Sys2Proof/Laws/State.lean ====
section
/-! SUPPORT. One lemma per field per update of the state, so that no later proof unfolds a record update. -/

namespace Sys2Proof.Machine

/-! ### `Block.withRegs` -/

@[simp] theorem Block.withRegs_regs (b : Block) (r : Regs) : (b.withRegs r).regs = r := rfl
@[simp] theorem Block.withRegs_zeroCode (b : Block) (r : Regs) : (b.withRegs r).zeroCode = b.zeroCode := rfl
@[simp] theorem Block.withRegs_zeroValid (b : Block) (r : Regs) : (b.withRegs r).zeroValid = b.zeroValid := rfl
@[simp] theorem Block.withRegs_spanCode (b : Block) (r : Regs) : (b.withRegs r).spanCode = b.spanCode := rfl
@[simp] theorem Block.withRegs_spanValid (b : Block) (r : Regs) : (b.withRegs r).spanValid = b.spanValid := rfl
@[simp] theorem Block.withRegs_calMassKg (b : Block) (r : Regs) : (b.withRegs r).calMassKg = b.calMassKg := rfl
@[simp] theorem Block.withRegs_calUnit (b : Block) (r : Regs) : (b.withRegs r).calUnit = b.calUnit := rfl
@[simp] theorem Block.withRegs_tareKg (b : Block) (r : Regs) : (b.withRegs r).tareKg = b.tareKg := rfl
@[simp] theorem Block.withRegs_accSum (b : Block) (r : Regs) : (b.withRegs r).accSum = b.accSum := rfl
@[simp] theorem Block.withRegs_accN (b : Block) (r : Regs) : (b.withRegs r).accN = b.accN := rfl

/-! ### `Block.recordZero` -/

@[simp] theorem Block.recordZero_regs (b : Block) (raw : Code) : (b.recordZero raw).regs = b.regs := rfl
@[simp] theorem Block.recordZero_zeroCode (b : Block) (raw : Code) : (b.recordZero raw).zeroCode = raw := rfl
@[simp] theorem Block.recordZero_zeroValid (b : Block) (raw : Code) : (b.recordZero raw).zeroValid = true := rfl
@[simp] theorem Block.recordZero_spanCode (b : Block) (raw : Code) : (b.recordZero raw).spanCode = b.spanCode := rfl
@[simp] theorem Block.recordZero_spanValid (b : Block) (raw : Code) : (b.recordZero raw).spanValid = b.spanValid := rfl
@[simp] theorem Block.recordZero_calMassKg (b : Block) (raw : Code) : (b.recordZero raw).calMassKg = b.calMassKg := rfl
@[simp] theorem Block.recordZero_calUnit (b : Block) (raw : Code) : (b.recordZero raw).calUnit = b.calUnit := rfl
@[simp] theorem Block.recordZero_tareKg (b : Block) (raw : Code) : (b.recordZero raw).tareKg = b.tareKg := rfl
@[simp] theorem Block.recordZero_accSum (b : Block) (raw : Code) : (b.recordZero raw).accSum = b.accSum := rfl
@[simp] theorem Block.recordZero_accN (b : Block) (raw : Code) : (b.recordZero raw).accN = b.accN := rfl

/-! ### `Block.recordSpan` -/

@[simp] theorem Block.recordSpan_regs (b : Block) (raw : Code) (q : Num) (u : MassUnit) : (b.recordSpan raw q u).regs = b.regs := rfl
@[simp] theorem Block.recordSpan_zeroCode (b : Block) (raw : Code) (q : Num) (u : MassUnit) : (b.recordSpan raw q u).zeroCode = b.zeroCode := rfl
@[simp] theorem Block.recordSpan_zeroValid (b : Block) (raw : Code) (q : Num) (u : MassUnit) : (b.recordSpan raw q u).zeroValid = b.zeroValid := rfl
@[simp] theorem Block.recordSpan_spanCode (b : Block) (raw : Code) (q : Num) (u : MassUnit) : (b.recordSpan raw q u).spanCode = raw := rfl
@[simp] theorem Block.recordSpan_spanValid (b : Block) (raw : Code) (q : Num) (u : MassUnit) : (b.recordSpan raw q u).spanValid = true := rfl
@[simp] theorem Block.recordSpan_calMassKg (b : Block) (raw : Code) (q : Num) (u : MassUnit) : (b.recordSpan raw q u).calMassKg = q := rfl
@[simp] theorem Block.recordSpan_calUnit (b : Block) (raw : Code) (q : Num) (u : MassUnit) : (b.recordSpan raw q u).calUnit = u := rfl
@[simp] theorem Block.recordSpan_tareKg (b : Block) (raw : Code) (q : Num) (u : MassUnit) : (b.recordSpan raw q u).tareKg = b.tareKg := rfl
@[simp] theorem Block.recordSpan_accSum (b : Block) (raw : Code) (q : Num) (u : MassUnit) : (b.recordSpan raw q u).accSum = b.accSum := rfl
@[simp] theorem Block.recordSpan_accN (b : Block) (raw : Code) (q : Num) (u : MassUnit) : (b.recordSpan raw q u).accN = b.accN := rfl

/-! ### `Block.withTare` -/

@[simp] theorem Block.withTare_regs (b : Block) (q : Num) : (b.withTare q).regs = b.regs := rfl
@[simp] theorem Block.withTare_zeroCode (b : Block) (q : Num) : (b.withTare q).zeroCode = b.zeroCode := rfl
@[simp] theorem Block.withTare_zeroValid (b : Block) (q : Num) : (b.withTare q).zeroValid = b.zeroValid := rfl
@[simp] theorem Block.withTare_spanCode (b : Block) (q : Num) : (b.withTare q).spanCode = b.spanCode := rfl
@[simp] theorem Block.withTare_spanValid (b : Block) (q : Num) : (b.withTare q).spanValid = b.spanValid := rfl
@[simp] theorem Block.withTare_calMassKg (b : Block) (q : Num) : (b.withTare q).calMassKg = b.calMassKg := rfl
@[simp] theorem Block.withTare_calUnit (b : Block) (q : Num) : (b.withTare q).calUnit = b.calUnit := rfl
@[simp] theorem Block.withTare_tareKg (b : Block) (q : Num) : (b.withTare q).tareKg = q := rfl
@[simp] theorem Block.withTare_accSum (b : Block) (q : Num) : (b.withTare q).accSum = b.accSum := rfl
@[simp] theorem Block.withTare_accN (b : Block) (q : Num) : (b.withTare q).accN = b.accN := rfl

/-! ### `Block.clearAcc` -/

@[simp] theorem Block.clearAcc_regs (b : Block) : (b.clearAcc).regs = b.regs := rfl
@[simp] theorem Block.clearAcc_zeroCode (b : Block) : (b.clearAcc).zeroCode = b.zeroCode := rfl
@[simp] theorem Block.clearAcc_zeroValid (b : Block) : (b.clearAcc).zeroValid = b.zeroValid := rfl
@[simp] theorem Block.clearAcc_spanCode (b : Block) : (b.clearAcc).spanCode = b.spanCode := rfl
@[simp] theorem Block.clearAcc_spanValid (b : Block) : (b.clearAcc).spanValid = b.spanValid := rfl
@[simp] theorem Block.clearAcc_calMassKg (b : Block) : (b.clearAcc).calMassKg = b.calMassKg := rfl
@[simp] theorem Block.clearAcc_calUnit (b : Block) : (b.clearAcc).calUnit = b.calUnit := rfl
@[simp] theorem Block.clearAcc_tareKg (b : Block) : (b.clearAcc).tareKg = b.tareKg := rfl
@[simp] theorem Block.clearAcc_accSum (b : Block) : (b.clearAcc).accSum = 0 := rfl
@[simp] theorem Block.clearAcc_accN (b : Block) : (b.clearAcc).accN = 0 := rfl

/-! ### `Block.accumulate` -/

@[simp] theorem Block.accumulate_regs (b : Block) (z : Int) : (b.accumulate z).regs = b.regs := rfl
@[simp] theorem Block.accumulate_zeroCode (b : Block) (z : Int) : (b.accumulate z).zeroCode = b.zeroCode := rfl
@[simp] theorem Block.accumulate_zeroValid (b : Block) (z : Int) : (b.accumulate z).zeroValid = b.zeroValid := rfl
@[simp] theorem Block.accumulate_spanCode (b : Block) (z : Int) : (b.accumulate z).spanCode = b.spanCode := rfl
@[simp] theorem Block.accumulate_spanValid (b : Block) (z : Int) : (b.accumulate z).spanValid = b.spanValid := rfl
@[simp] theorem Block.accumulate_calMassKg (b : Block) (z : Int) : (b.accumulate z).calMassKg = b.calMassKg := rfl
@[simp] theorem Block.accumulate_calUnit (b : Block) (z : Int) : (b.accumulate z).calUnit = b.calUnit := rfl
@[simp] theorem Block.accumulate_tareKg (b : Block) (z : Int) : (b.accumulate z).tareKg = b.tareKg := rfl
@[simp] theorem Block.accumulate_accSum (b : Block) (z : Int) : (b.accumulate z).accSum = b.accSum + z := rfl
@[simp] theorem Block.accumulate_accN (b : Block) (z : Int) : (b.accumulate z).accN = b.accN + 1 := rfl

/-! ### `State.withBlock` -/

@[simp] theorem State.withBlock_block (s : State) (b : Block) : (s.withBlock b).block = b := rfl
@[simp] theorem State.withBlock_pending (s : State) (b : Block) : (s.withBlock b).pending = s.pending := rfl
@[simp] theorem State.withBlock_response (s : State) (b : Block) : (s.withBlock b).response = s.response := rfl
@[simp] theorem State.withBlock_wire (s : State) (b : Block) : (s.withBlock b).wire = s.wire := rfl

/-! ### `State.withResponse` -/

@[simp] theorem State.withResponse_block (s : State) (r : Response) : (s.withResponse r).block = s.block := rfl
@[simp] theorem State.withResponse_pending (s : State) (r : Response) : (s.withResponse r).pending = s.pending := rfl
@[simp] theorem State.withResponse_response (s : State) (r : Response) : (s.withResponse r).response = some r := rfl
@[simp] theorem State.withResponse_wire (s : State) (r : Response) : (s.withResponse r).wire = s.wire := rfl

/-! ### `State.withWire` -/

@[simp] theorem State.withWire_block (s : State) (f : WireFrame) : (s.withWire f).block = s.block := rfl
@[simp] theorem State.withWire_pending (s : State) (f : WireFrame) : (s.withWire f).pending = s.pending := rfl
@[simp] theorem State.withWire_response (s : State) (f : WireFrame) : (s.withWire f).response = s.response := rfl
@[simp] theorem State.withWire_wire (s : State) (f : WireFrame) : (s.withWire f).wire = some f := rfl

/-! ### `State.withPending` -/

@[simp] theorem State.withPending_block (s : State) (l : List HostInput) : (s.withPending l).block = s.block := rfl
@[simp] theorem State.withPending_pending (s : State) (l : List HostInput) : (s.withPending l).pending = l := rfl
@[simp] theorem State.withPending_response (s : State) (l : List HostInput) : (s.withPending l).response = s.response := rfl
@[simp] theorem State.withPending_wire (s : State) (l : List HostInput) : (s.withPending l).wire = s.wire := rfl

end Sys2Proof.Machine
end

