-- ==== Sys2Proof/Laws/Ops.lean ====
section
/-! SUPPORT. For each shared operation of Machine/Ops.lean, Operands.lean and Flags.lean, what it can do, said once:
later proofs cite these lemmas instead of unfolding the operation. -/

namespace Sys2Proof.Machine

/-! ### The register space -/

@[simp] theorem Regs.get_set_same (r : Regs) (a : Fin 4) (v : Byte) : (r.set a v).get a = v := by
  match a with
  | 0 | 1 | 2 | 3 => rfl

theorem Regs.get_set_other (r : Regs) {a b : Fin 4} (v : Byte) (h : b ≠ a) : (r.set a v).get b = r.get b := by
  match a, b with
  | 0, 0 | 1, 1 | 2, 2 | 3, 3 => exact absurd rfl h
  | 0, 1 | 0, 2 | 0, 3 | 1, 0 | 1, 2 | 1, 3 | 2, 0 | 2, 1 | 2, 3 | 3, 0 | 3, 1 | 3, 2 => rfl

/-- Registers that read the same everywhere are the same. -/
theorem Regs.ext_get {r r' : Regs} (h : ∀ a, r.get a = r'.get a) : r = r' := by
  obtain ⟨a0, a1, a2, a3⟩ := r
  obtain ⟨b0, b1, b2, b3⟩ := r'
  have h0 := h 0
  have h1 := h 1
  have h2 := h 2
  have h3 := h 3
  simp only [Regs.get] at h0 h1 h2 h3
  subst h0 h1 h2 h3
  rfl

/-- A read inside the register space succeeds and gives the registers in ascending order. -/
theorem memRead_inside (r : Regs) (n addr : Nat) (h : addr + n ≤ 4) :
    ∃ l, memRead r addr n = some l ∧ l.length = n ∧
      ∀ (k : Nat) (a : Fin 4), k < n → a.val = addr + k → l[k]? = some (r.get a) := by
  induction n generalizing addr with
  | zero => exact ⟨[], rfl, rfl, fun k a hk => absurd hk (Nat.not_lt_zero k)⟩
  | succ n ih =>
    obtain ⟨l, hl, hlen, hget⟩ := ih (addr + 1) (by omega)
    have ha : addr < 4 := by omega
    refine ⟨r.get ⟨addr, ha⟩ :: l, by simp [memRead, ha, hl], by simp [hlen], fun k a hk hak => ?_⟩
    cases k with
    | zero => simp [show a = ⟨addr, ha⟩ from Fin.ext hak]
    | succ k => simpa using hget k a (by omega) (by omega)

/-- A write inside the register space succeeds, writes its bytes in ascending order and touches no other register. -/
theorem memWrite_inside (l : List Byte) (r : Regs) (addr : Nat) (h : addr + l.length ≤ 4) :
    ∃ r', memWrite r addr l = some r' ∧
      (∀ (k : Nat) (a : Fin 4), k < l.length → a.val = addr + k → some (r'.get a) = l[k]?) ∧
      ∀ a : Fin 4, a.val < addr ∨ addr + l.length ≤ a.val → r'.get a = r.get a := by
  induction l generalizing r addr with
  | nil => exact ⟨r, rfl, fun k a hk => absurd hk (Nat.not_lt_zero k), fun a _ => rfl⟩
  | cons v l ih =>
    simp only [List.length_cons] at h
    have ha : addr < 4 := by omega
    obtain ⟨r', hr, hin, hout⟩ := ih (r.set ⟨addr, ha⟩ v) (addr + 1) (by omega)
    refine ⟨r', by simp [memWrite, ha, hr], fun k a hk hak => ?_, fun a hcase => ?_⟩
    · cases k with
      | zero =>
        have : a = ⟨addr, ha⟩ := Fin.ext hak
        subst this
        simp [hout ⟨addr, ha⟩ (Or.inl (Nat.lt_succ_self addr))]
      | succ k => simpa using hin k a (by simpa using hk) (by omega)
    · simp only [List.length_cons] at hcase
      rw [hout a (by omega), Regs.get_set_other]
      intro h'
      rw [h'] at hcase
      simp at hcase

/-! ### Operand checks -/

theorem fitsWidth_iff (w : Nat) (v : Int) : fitsWidth w v = true ↔ 0 ≤ v ∧ v < 2 ^ w := by
  simp [fitsWidth]

theorem sampleInRange_iff (z : Int) : sampleInRange z = true ↔ -(2 ^ 23) ≤ z ∧ z ≤ 2 ^ 23 - 1 := by
  simp [sampleInRange]

theorem admittedWidth_iff (w : Int) : admittedWidth w = true ↔ w = 16 ∨ w = 24 := by
  simp [admittedWidth, Config.widths]

/-- The address pair is accepted, or the error is InvalidAddress (R33). -/
theorem checkAddressPair_eq (start count : Int) :
    checkAddressPair start count =
      if 0 ≤ start ∧ start ≤ 3 ∧ 1 ≤ count ∧ count ≤ 4 then .ok () else .error .invalidAddress := by
  unfold checkAddressPair
  split <;> [skip; split] <;> split <;> first | rfl | omega

/-- A burst is accepted when it names actual registers only, or the error is InvalidAddress (R34). -/
theorem checkBurst_eq (start count : Int) :
    checkBurst start count =
      if 0 ≤ start ∧ 1 ≤ count ∧ start + count ≤ 4 then .ok () else .error .invalidAddress := by
  unfold checkBurst
  rw [checkAddressPair_eq]
  by_cases h : 0 ≤ start ∧ start ≤ 3 ∧ 1 ≤ count ∧ count ≤ 4
  · rw [if_pos h]
    dsimp only
    split <;> split <;> first | rfl | omega
  · rw [if_neg h]
    dsimp only
    rw [if_neg (by omega)]

/-! ### Fields and command bytes -/

theorem encodeField_fits {sl : FieldSlot} {v : Int} (reg : Byte) (h : 0 ≤ v ∧ v < 2 ^ sl.width) :
    encodeField sl reg v = .ok ((reg &&& (0xFF - fieldMask sl)) ||| BitVec.ofNat 8 (v.toNat <<< sl.lsb)) := by
  simp [encodeField, (fitsWidth_iff sl.width v).mpr h]

theorem encodeField_outside {sl : FieldSlot} {v : Int} (reg : Byte) (h : v < 0 ∨ 2 ^ sl.width ≤ v) :
    encodeField sl reg v = .error .outOfRange := by
  have : fitsWidth sl.width v = false := by
    rw [← Bool.not_eq_true, fitsWidth_iff]
    omega
  simp [encodeField, this]

theorem buildCommand_addressed (byteOf : OpcodeId → Byte) {opc : OpcodeId} (start count : Int)
    (h : opc.registerAccess = true) :
    buildCommand byteOf opc start count =
      if 0 ≤ start ∧ start ≤ 3 ∧ 1 ≤ count ∧ count ≤ 4 then .ok (addressedByte (byteOf opc) start count)
      else .error .invalidAddress := by
  simp only [buildCommand, h, if_true, checkAddressPair_eq]
  by_cases hc : 0 ≤ start ∧ start ≤ 3 ∧ 1 ≤ count ∧ count ≤ 4 <;> simp [hc]

theorem buildCommand_nonAddressed (byteOf : OpcodeId → Byte) {opc : OpcodeId} (start count : Int)
    (h : opc.registerAccess = false) : buildCommand byteOf opc start count = .ok (byteOf opc) := by
  simp [buildCommand, h]

/-- The frame of a register write exists exactly when the registers it names do; then it is the command byte and
those registers in ascending order. -/
theorem writeFrame_cases (r : Regs) (start count : Int) :
    ((0 ≤ start ∧ 1 ≤ count ∧ start + count ≤ 4) ∧
      ∃ l, writeFrame r start count = .ok (addressedByte (Config.opcodeByte .writeReg) start count, l) ∧
        memRead r start.toNat count.toNat = some l) ∨
    (¬ (0 ≤ start ∧ 1 ≤ count ∧ start + count ≤ 4) ∧ writeFrame r start count = .error .invalidAddress) := by
  simp only [writeFrame, buildCommand_addressed Config.opcodeByte (opc := .writeReg) start count rfl, checkBurst_eq]
  by_cases h : 0 ≤ start ∧ 1 ≤ count ∧ start + count ≤ 4
  · obtain ⟨l, hl, -, -⟩ := memRead_inside r count.toNat start.toNat (by omega)
    refine .inl ⟨h, l, ?_, hl⟩
    rw [if_pos (by omega), if_pos h, hl]
  · refine .inr ⟨h, ?_⟩
    by_cases hp : 0 ≤ start ∧ start ≤ 3 ∧ 1 ≤ count ∧ count ≤ 4
    · rw [if_pos hp, if_neg h]
    · rw [if_neg hp]

/-! ### Samples -/

/-- Sign extension as a comparison: the top bit is set exactly in the upper half (R101). -/
theorem sext_eq (w u : Nat) (hu : u < 2 ^ (w + 1)) :
    sext (w + 1) u = if u < 2 ^ w then (u : Int) else (u : Int) - 2 ^ (w + 1) := by
  have hbit : u.testBit w = decide (2 ^ w ≤ u) := by
    rw [Nat.testBit_eq_decide_div_mod_eq]
    congr 1
    apply propext
    have hpow : 2 ^ (w + 1) = 2 * 2 ^ w := by rw [Nat.pow_succ, Nat.mul_comm]
    rw [hpow] at hu
    constructor
    · intro h
      by_contra hlt
      rw [Nat.div_eq_of_lt (Nat.lt_of_not_le hlt)] at h
      simp at h
    · intro h
      have : u / 2 ^ w = 1 := by
        rw [Nat.div_eq_iff (Nat.two_pow_pos w)]
        omega
      rw [this]
  simp only [sext, Nat.add_sub_cancel, hbit]
  by_cases h : 2 ^ w ≤ u
  · simp [h, Nat.not_lt.mpr h]
  · simp [h, Nat.lt_of_not_le h]

/-- A decoder's answer: the width error, the length error, the refusal, or the sample of a frame of exact length. -/
theorem decodeSample_eq (unit : Nat) (seq : List Nat) (w : Int) :
    decodeSample unit seq w =
      if w ≠ 16 ∧ w ≠ 24 then .raise .outOfRange
      else if seq.length < w.toNat / unit then .raise .frameTooShort
      else if w.toNat / unit < seq.length then .noMeaning .overlongFrame
      else .ok (sext w.toNat (assemble unit seq)) := by
  have h : (admittedWidth w = false) ↔ (w ≠ 16 ∧ w ≠ 24) := by
    rw [← Bool.not_eq_true, admittedWidth_iff]
    omega
  simp only [decodeSample, h, gt_iff_lt]

/-- An assembled frame is a number of as many bits as it has. -/
theorem assemble_lt (unit : Nat) (seq : List Nat) (h : ∀ x ∈ seq, x < 2 ^ unit) :
    assemble unit seq < 2 ^ (unit * seq.length) := by
  suffices H : ∀ (l : List Nat) (u m : Nat), u < 2 ^ m → (∀ x ∈ l, x < 2 ^ unit) →
      l.foldl (fun u x => u * 2 ^ unit + x) u < 2 ^ (m + unit * l.length) from by
    simpa [assemble] using H seq 0 0 (by simp) h
  intro l
  induction l with
  | nil => intro u m hu _; simpa using hu
  | cons x l ih =>
    intro u m hu hl
    have hx : x < 2 ^ unit := hl x (by simp)
    have hstep : u * 2 ^ unit + x < 2 ^ (m + unit) := by
      rw [Nat.pow_add]
      calc u * 2 ^ unit + x < u * 2 ^ unit + 2 ^ unit := by omega
        _ = (u + 1) * 2 ^ unit := by rw [Nat.add_mul, Nat.one_mul]
        _ ≤ 2 ^ m * 2 ^ unit := Nat.mul_le_mul_right _ hu
    have := ih (u * 2 ^ unit + x) (m + unit) hstep (fun y hy => hl y (by simp [hy]))
    simpa [Nat.mul_add, Nat.add_assoc, Nat.add_comm, Nat.add_left_comm] using this

/-! ### The calibration guards -/

/-- The guard fails in R159's order and passes exactly with both points recorded and different codes. -/
theorem Block.conversionGuard_cases (b : Block) :
    (b.conversionGuard = .error .calibrationIncomplete ∧ (b.zeroValid = false ∨ b.spanValid = false)) ∨
    (b.conversionGuard = .error .divisionByZero ∧ b.zeroValid = true ∧ b.spanValid = true ∧
      b.spanCode = b.zeroCode) ∨
    (b.conversionGuard = .ok () ∧ b.zeroValid = true ∧ b.spanValid = true ∧ b.spanCode ≠ b.zeroCode) := by
  unfold Block.conversionGuard Block.calibrationComplete
  cases hz : b.zeroValid <;> cases hs : b.spanValid <;> by_cases hc : b.spanCode = b.zeroCode <;> simp [hc]

/-! ### Answers -/

@[simp] theorem respond_eq (r : Result) (s : State) : respond r s = .next (s.withResponse (.ok r)) := rfl
@[simp] theorem raiseError_eq (k : ErrorKind) (s : State) : raiseError k s = .next (s.withResponse (.err k)) := rfl
@[simp] theorem transmit_eq (c : Byte) (f : Follows) (s : State) : transmit c f s = .next (s.withWire ⟨c, f⟩) := rfl

/-- What `answer` can do: respond, raise or refuse, and nothing else to the state. -/
theorem answer_cases (a : Answer Result) (s : State) :
    (∃ r, a = .ok r ∧ answer a s = .next (s.withResponse (.ok r))) ∨
    (∃ k, a = .raise k ∧ answer a s = .next (s.withResponse (.err k))) ∨
    (∃ q, a = .noMeaning q ∧ answer a s = .refused q) := by
  cases a with
  | ok r => exact .inl ⟨r, rfl, rfl⟩
  | raise k => exact .inr (.inl ⟨k, rfl, rfl⟩)
  | noMeaning q => exact .inr (.inr ⟨q, rfl, rfl⟩)

/-! ### Fetching -/

/-- What the block takes from its boundary. -/
theorem fetch_cases (s : State) :
    (s.pending = [] ∧ fetch s = .idle) ∨
    (∃ rest, s.pending = .resetEvent :: rest ∧ fetch s = .resetEvent (s.withPending rest)) ∨
    (∃ e rest i, s.pending = .present e :: rest ∧ decode e = .ok i ∧ fetch s = .run i (s.withPending rest)) ∨
    (∃ e rest err, s.pending = .present e :: rest ∧ decode e = .error err ∧ fetch s = .reject err) := by
  unfold fetch
  match hp : s.pending with
  | [] => exact .inl ⟨rfl, rfl⟩
  | .resetEvent :: rest => exact .inr (.inl ⟨rest, rfl, rfl⟩)
  | .present e :: rest =>
    cases hd : decode e with
    | ok i => exact .inr (.inr (.inl ⟨e, rest, i, rfl, hd, by simp [hd]⟩))
    | error err => exact .inr (.inr (.inr ⟨e, rest, err, rfl, hd, by simp [hd]⟩))

end Sys2Proof.Machine
end

