-- ==== Sys2Proof/Laws/Exec.lean ====
section
/-! SUPPORT. What an instruction and a step can do, said once: an instruction responds with an effect its row of R10
allows, raises an error its row of R151 lists, or refuses an over-long input; nothing else can happen. -/

namespace Sys2Proof.Machine

/-- A host operation that reads the block and writes nothing of it. -/
theorem answer_host_cases {i : Instr} {s : State} {a : Answer Result} (hexec : exec i s = answer a s)
    (heff : BlockEffect i s.block s.block) (hraise : ∀ k, a = .raise k → k ∈ mayRaise i)
    (href : ∀ q, a = .noMeaning q → Overlong i ∧ q = .overlongFrame) :
    (∃ k, k ∈ mayRaise i ∧ exec i s = .next (s.withResponse (.err k))) ∨
    (Overlong i ∧ (exec i s = .refused .overlongFrame ∨ exec i s = .refused .overlongPayload)) ∨
    ∃ r b, exec i s = .next ((s.withBlock b).withResponse (.ok r)) ∧ BlockEffect i s.block b := by
  rcases answer_cases a s with ⟨r, ha, he⟩ | ⟨k, ha, he⟩ | ⟨q, ha, he⟩
  · exact .inr (.inr ⟨r, s.block, by rw [hexec, he]; rfl, heff⟩)
  · exact .inl ⟨k, hraise k ha, by rw [hexec, he]⟩
  · obtain ⟨ho, rfl⟩ := href q ha
    exact .inr (.inl ⟨ho, .inl (by rw [hexec, he])⟩)

/-- The decoders raise OutOfRange or FrameTooShort, and refuse exactly a frame longer than its width. -/
theorem ofSample_cases (unit : Nat) (seq : List Nat) (w : Int) :
    (∀ k, Answer.ofSample (decodeSample unit seq w) = .raise k → k = .outOfRange ∨ k = .frameTooShort) ∧
    (∀ q, Answer.ofSample (decodeSample unit seq w) = .noMeaning q →
      (w = 16 ∨ w = 24) ∧ w.toNat / unit < seq.length ∧ q = .overlongFrame) := by
  rw [decodeSample_eq]
  by_cases hw : w ≠ 16 ∧ w ≠ 24
  · simp [hw, Answer.ofSample]
  · rw [if_neg hw]
    split
    · simp [Answer.ofSample]
    · split
      · refine ⟨by simp [Answer.ofSample], fun q hq => ⟨by omega, by assumption, ?_⟩⟩
        simpa [Answer.ofSample, eq_comm] using hq
      · simp [Answer.ofSample]

/-- An `Except` answer raises what the check raised and refuses nothing. -/
theorem ofExcept_cases {α : Type} (wrap : α → Result) (x : Except ErrorKind α) :
    (∀ k, Answer.ofExcept wrap x = .raise k → x = .error k) ∧
    (∀ q, Answer.ofExcept wrap x ≠ .noMeaning q) := by
  cases x with
  | ok a => exact ⟨fun k h => by simp [Answer.ofExcept] at h, fun q h => by simp [Answer.ofExcept] at h⟩
  | error e => exact ⟨fun k h => by simpa [Answer.ofExcept] using h, fun q h => by simp [Answer.ofExcept] at h⟩

theorem encodeField_error {sl : FieldSlot} {reg : Byte} {v : Int} {k : ErrorKind}
    (h : encodeField sl reg v = .error k) : k = .outOfRange := by
  unfold encodeField at h
  split at h
  · exact (Except.error.inj h).symm
  · cases h

theorem buildCommand_error {byteOf : OpcodeId → Byte} {opc : OpcodeId} {start count : Int} {k : ErrorKind}
    (h : buildCommand byteOf opc start count = .error k) : k = .invalidAddress := by
  cases ho : opc.registerAccess with
  | true =>
    rw [buildCommand_addressed byteOf start count ho] at h
    split at h
    · cases h
    · exact (Except.error.inj h).symm
  | false =>
    rw [buildCommand_nonAddressed byteOf start count ho] at h
    cases h

theorem mean_error {rnd : Num → Num} {b : Block} {k : ErrorKind} (h : b.mean rnd = .error k) :
    k = .outOfRange := by
  unfold Block.mean at h
  split at h
  · exact (Except.error.inj h).symm
  · cases h

theorem toVoltage_error {rnd : Num → Num} {raw vref : Rat} {bits gain : Int} {k : ErrorKind}
    (h : toVoltage rnd raw bits vref gain = .error k) : k = .outOfRange := by
  unfold toVoltage at h
  split at h
  · exact (Except.error.inj h).symm
  · split at h
    · exact (Except.error.inj h).symm
    · cases h

theorem toMass_error {rnd : Num → Num} {b : Block} {raw : Rat} {k : ErrorKind} (h : b.toMass rnd raw = .error k) :
    k = .calibrationIncomplete ∨ k = .divisionByZero := by
  unfold Block.toMass at h
  rcases b.conversionGuard_cases with ⟨hg, -⟩ | ⟨hg, -⟩ | ⟨hg, -⟩ <;> rw [hg] at h
  · exact .inl (Except.error.inj h).symm
  · exact .inr (Except.error.inj h).symm
  · cases h

/-- What a host operation can do. -/
theorem exec_host_cases (i : Instr) (s : State) (hi : i.isWire = false) :
    (∃ k, k ∈ mayRaise i ∧ exec i s = .next (s.withResponse (.err k))) ∨
    (Overlong i ∧ (exec i s = .refused .overlongFrame ∨ exec i s = .refused .overlongPayload)) ∨
    ∃ r b, exec i s = .next ((s.withBlock b).withResponse (.ok r)) ∧ BlockEffect i s.block b := by
  cases i with
  | cmdReset | cmdShutdown | cmdStart | cmdReadData | cmdReadReg | cmdWriteReg => simp [Instr.isWire] at hi
  | encf reg f v =>
    refine answer_host_cases rfl rfl (fun k hk => ?_) fun q hq => absurd hq ((ofExcept_cases _ _).2 q)
    simp [mayRaise, encodeField_error ((ofExcept_cases _ _).1 k hk)]
  | decf reg f => exact .inr (.inr ⟨_, s.block, rfl, rfl⟩)
  | getf f => exact .inr (.inr ⟨_, s.block, rfl, rfl⟩)
  | setf f v =>
    simp only [exec, execSetf]
    cases he : encodeField (Config.fieldTable f) (s.block.regs.get (Config.fieldTable f).reg) v with
    | error k => exact .inl ⟨k, by simp [mayRaise, encodeField_error he], rfl⟩
    | ok new => exact .inr (.inr ⟨.none, _, rfl, _, rfl⟩)
  | bcmd opc start count =>
    refine answer_host_cases rfl rfl (fun k hk => ?_) fun q hq => absurd hq ((ofExcept_cases _ _).2 q)
    simp [mayRaise, buildCommand_error ((ofExcept_cases _ _).1 k hk)]
  | dsmp bytes w =>
    refine answer_host_cases rfl rfl (fun k hk => ?_) fun q hq => ?_
    · simpa [mayRaise] using (ofSample_cases 8 _ w).1 k hk
    · obtain ⟨hw, hlen, rfl⟩ := (ofSample_cases 8 _ w).2 q hq
      simp only [List.length_map] at hlen
      exact ⟨hw.imp (fun h => ⟨h, by rw [h] at hlen; exact hlen⟩) fun h => ⟨h, by rw [h] at hlen; exact hlen⟩, rfl⟩
  | dsmpb bits w =>
    refine answer_host_cases rfl rfl (fun k hk => ?_) fun q hq => ?_
    · simpa [mayRaise] using (ofSample_cases 1 _ w).1 k hk
    · obtain ⟨hw, hlen, rfl⟩ := (ofSample_cases 1 _ w).2 q hq
      simp only [List.length_map] at hlen
      exact ⟨hw.imp (fun h => ⟨h, by rw [h] at hlen; exact hlen⟩) fun h => ⟨h, by rw [h] at hlen; exact hlen⟩, rfl⟩
  | epay start count =>
    simp only [exec, execEpay, checkBurst_eq]
    by_cases hc : 0 ≤ start ∧ 1 ≤ count ∧ start + count ≤ 4
    · obtain ⟨l, hl, -, -⟩ := memRead_inside s.block.regs count.toNat start.toNat (by omega)
      exact .inr (.inr ⟨.bytes l, s.block, by simp [hc, hl, respond]; rfl, rfl⟩)
    · exact .inl ⟨.invalidAddress, by simp [mayRaise], by rw [if_neg hc]; rfl⟩
  | lpay start count bytes =>
    simp only [exec, execLpay, checkBurst_eq]
    by_cases hc : 0 ≤ start ∧ 1 ≤ count ∧ start + count ≤ 4
    · rw [if_pos hc]
      dsimp only
      split
      · exact .inl ⟨.frameTooShort, by simp [mayRaise], rfl⟩
      · split
        · exact .inr (.inl ⟨⟨hc.1, hc.2.1, hc.2.2, by omega⟩, .inr rfl⟩)
        · obtain ⟨r, hr, -, -⟩ := memWrite_inside bytes s.block.regs start.toNat (by omega)
          exact .inr (.inr ⟨.none, _, by rw [hr]; rfl, r, rfl⟩)
    · exact .inl ⟨.invalidAddress, by simp [mayRaise], by rw [if_neg hc]; rfl⟩
  | aclr => exact .inr (.inr ⟨.none, _, rfl, rfl⟩)
  | aadd smp =>
    simp only [exec, execAadd]
    cases hr : sampleInRange smp with
    | false => exact .inl ⟨.outOfRange, by simp [mayRaise], rfl⟩
    | true => exact .inr (.inr ⟨.none, _, rfl, (sampleInRange_iff smp).mp hr, rfl⟩)
  | amean =>
    refine answer_host_cases rfl rfl (fun k hk => ?_) fun q hq => absurd hq ((ofExcept_cases _ _).2 q)
    simp [mayRaise, mean_error ((ofExcept_cases _ _).1 k hk)]
  | rzero raw => exact .inr (.inr ⟨.none, _, rfl, rfl⟩)
  | rspan raw m u => exact .inr (.inr ⟨.none, _, rfl, _, rfl⟩)
  | ctare raw =>
    simp only [exec, execCtare, Block.tareOf]
    rcases s.block.conversionGuard_cases with ⟨hg, -⟩ | ⟨hg, -⟩ | ⟨hg, hz, hs, -⟩ <;> rw [hg]
    · exact .inl ⟨.calibrationIncomplete, by simp [mayRaise], rfl⟩
    · exact .inl ⟨.divisionByZero, by simp [mayRaise], rfl⟩
    · exact .inr (.inr ⟨.none, _, rfl, ⟨hz, hs⟩, _, rfl⟩)
  | tmass raw =>
    refine answer_host_cases rfl rfl (fun k hk => ?_) fun q hq => absurd hq ((ofExcept_cases _ _).2 q)
    simpa [mayRaise] using toMass_error ((ofExcept_cases _ _).1 k hk)
  | tvolt raw bits vref gain =>
    refine answer_host_cases rfl rfl (fun k hk => ?_) fun q hq => absurd hq ((ofExcept_cases _ _).2 q)
    simp [mayRaise, toVoltage_error ((ofExcept_cases _ _).1 k hk)]

theorem writeFrame_error {r : Regs} {start count : Int} {k : ErrorKind} (h : writeFrame r start count = .error k) :
    k = .invalidAddress := by
  rcases writeFrame_cases r start count with ⟨-, l, he, -⟩ | ⟨-, he⟩ <;> rw [he] at h <;> cases h
  rfl

/-- What a wire command can do: go out on the wire, or, where its address pair does not fit, end in the error of BCMD
or of EPAY. -/
theorem exec_wire_cases (i : Instr) (s : State) (hi : i.isWire = true) :
    (∃ f, exec i s = .next (s.withWire f)) ∨ exec i s = .next (s.withResponse (.err .invalidAddress)) := by
  have addressed : ∀ (opc : OpcodeId) (start count : Nat) (f : Follows),
      (∃ g, transmitAddressed opc start count f s = .next (s.withWire g)) ∨
      transmitAddressed opc start count f s = .next (s.withResponse (.err .invalidAddress)) := by
    intro opc start count f
    unfold transmitAddressed
    cases hb : buildCommand Config.opcodeByte opc start count with
    | ok c => exact .inl ⟨_, rfl⟩
    | error k => exact .inr (by rw [buildCommand_error hb]; rfl)
  cases i with
  | cmdReset => exact .inl ⟨_, rfl⟩
  | cmdShutdown => exact .inl ⟨_, rfl⟩
  | cmdStart => exact .inl ⟨_, rfl⟩
  | cmdReadData => exact .inl ⟨_, rfl⟩
  | cmdReadReg start count => exact addressed .readReg start count _
  | cmdWriteReg start count =>
    simp only [exec, execCmdWriteReg]
    cases hf : writeFrame s.block.regs start count with
    | ok f => exact .inl ⟨_, rfl⟩
    | error k => exact .inr (by rw [writeFrame_error hf]; rfl)
  | encf | decf | setf | getf | bcmd | dsmp | dsmpb | epay | lpay | aclr | aadd | amean | rzero | rspan | ctare
  | tmass | tvolt => simp [Instr.isWire] at hi

/-- What an instruction that ends in a next state did: to the block, at most the effect its row of R10 allows, and to
the host's list, nothing. -/
theorem exec_next_cases {i : Instr} {s t : State} (h : exec i s = .next t) :
    t.pending = s.pending ∧ (t.block = s.block ∨ (i.isWire = false ∧ BlockEffect i s.block t.block)) := by
  cases hi : i.isWire with
  | true =>
    rcases exec_wire_cases i s hi with ⟨f, he⟩ | he <;> rw [he] at h <;> cases h <;> exact ⟨rfl, .inl rfl⟩
  | false =>
    rcases exec_host_cases i s hi with ⟨k, -, he⟩ | ⟨-, he | he⟩ | ⟨r, b, he, heff⟩ <;> rw [he] at h
    · cases h
      exact ⟨rfl, .inl rfl⟩
    · cases h
    · cases h
    · cases h
      exact ⟨rfl, .inr ⟨rfl, heff⟩⟩

/-- What a step that ends in a next state did. -/
theorem step_next_cases {s t : State} (h : step s = .next t) :
    (s.pending = [] ∧ t = s) ∨
    (∃ rest, s.pending = .resetEvent :: rest ∧ t = resetBlock (s.withPending rest)) ∨
    (∃ e rest i, s.pending = .present e :: rest ∧ decode e = .ok i ∧ exec i (s.withPending rest) = .next t) := by
  unfold step at h
  rcases fetch_cases s with ⟨hp, hf⟩ | ⟨rest, hp, hf⟩ | ⟨e, rest, i, hp, hd, hf⟩ | ⟨e, rest, err, hp, hd, hf⟩ <;>
    rw [hf] at h
  · cases h
    exact .inl ⟨hp, rfl⟩
  · cases h
    exact .inr (.inl ⟨rest, hp, rfl⟩)
  · exact .inr (.inr ⟨e, rest, i, hp, hd, h⟩)
  · cases h

end Sys2Proof.Machine
end

