-- ==== Sys2Proof/Laws/PerInstr.lean ====
section
/-! SUPPORT. One fact per instruction, about the instruction as syntax: its encoding begins with a byte of its row of
spec/opcode_table.json, in the row's space. -/

set_option Elab.async false

namespace Sys2Proof.Laws.TableRow

/-- A row of the opcode table: its space (a wire command byte or a request selector), its match and its mask. -/
structure Row where
  wire     : Bool
  bits     : Nat
  mask     : Nat
  deriving DecidableEq, Repr

/-- The row of each instruction. -/
def rowOf : Instr → Row
  | .cmdReset => ⟨true, 0x06, 0xFF⟩
  | .cmdShutdown => ⟨true, 0x02, 0xFF⟩
  | .cmdStart => ⟨true, 0x08, 0xFF⟩
  | .cmdReadData => ⟨true, 0x10, 0xFF⟩
  | .cmdReadReg _ _ => ⟨true, 0x20, 0xF0⟩
  | .cmdWriteReg _ _ => ⟨true, 0x40, 0xF0⟩
  | .encf _ _ _ => ⟨false, 0x00, 0xFF⟩
  | .decf _ _ => ⟨false, 0x01, 0xFF⟩
  | .setf _ _ => ⟨false, 0x02, 0xFF⟩
  | .getf _ => ⟨false, 0x03, 0xFF⟩
  | .bcmd _ _ _ => ⟨false, 0x04, 0xFF⟩
  | .dsmp _ _ => ⟨false, 0x05, 0xFF⟩
  | .dsmpb _ _ => ⟨false, 0x06, 0xFF⟩
  | .epay _ _ => ⟨false, 0x07, 0xFF⟩
  | .lpay _ _ _ => ⟨false, 0x08, 0xFF⟩
  | .aclr => ⟨false, 0x09, 0xFF⟩
  | .aadd _ => ⟨false, 0x0A, 0xFF⟩
  | .amean => ⟨false, 0x0B, 0xFF⟩
  | .rzero _ => ⟨false, 0x0C, 0xFF⟩
  | .rspan _ _ _ => ⟨false, 0x0D, 0xFF⟩
  | .ctare _ => ⟨false, 0x0E, 0xFF⟩
  | .tmass _ => ⟨false, 0x0F, 0xFF⟩
  | .tvolt _ _ _ _ => ⟨false, 0x10, 0xFF⟩

/-- The space of an encoded instruction and its first byte. -/
def head : Encoded → Bool × Byte
  | .command c => (true, c)
  | .request opsel _ => (false, opsel)

/-- A well-formed instruction is encoded in its row's space, by a byte its row matches. -/
def Statement (i : Instr) : Prop :=
  i.wf = true → (head (encode i)).1 = (rowOf i).wire ∧
    (head (encode i)).2.toNat &&& (rowOf i).mask = (rowOf i).bits

theorem cmdReset : Statement .cmdReset := fun _ => ⟨rfl, rfl⟩
theorem cmdShutdown : Statement .cmdShutdown := fun _ => ⟨rfl, rfl⟩
theorem cmdStart : Statement .cmdStart := fun _ => ⟨rfl, rfl⟩
theorem cmdReadData : Statement .cmdReadData := fun _ => ⟨rfl, rfl⟩

theorem cmdReadReg (start count : Nat) : Statement (.cmdReadReg start count) := by
  intro h
  simp only [Instr.wf, startFits, countFits, Bool.and_eq_true, decide_eq_true_eq] at h
  have hb := congrArg BitVec.toNat (addressedByte_fields (Config.opcodeByte .readReg) start count h.1 h.2.1 h.2.2).2.2
  rw [BitVec.toNat_and] at hb
  exact ⟨rfl, hb⟩

theorem cmdWriteReg (start count : Nat) : Statement (.cmdWriteReg start count) := by
  intro h
  simp only [Instr.wf, startFits, countFits, Bool.and_eq_true, decide_eq_true_eq] at h
  have hb := congrArg BitVec.toNat (addressedByte_fields (Config.opcodeByte .writeReg) start count h.1 h.2.1 h.2.2).2.2
  rw [BitVec.toNat_and] at hb
  exact ⟨rfl, hb⟩

theorem encf (reg : Byte) (f : FieldId) (v : Int) : Statement (.encf reg f v) := fun _ => by simp [head, encode, rowOf]
theorem decf (reg : Byte) (f : FieldId) : Statement (.decf reg f) := fun _ => by simp [head, encode, rowOf]
theorem setf (f : FieldId) (v : Int) : Statement (.setf f v) := fun _ => by simp [head, encode, rowOf]
theorem getf (f : FieldId) : Statement (.getf f) := fun _ => by simp [head, encode, rowOf]
theorem bcmd (opc : OpcodeId) (start count : Int) : Statement (.bcmd opc start count) := fun _ => by simp [head, encode, rowOf]
theorem dsmp (bytes : List Byte) (w : Int) : Statement (.dsmp bytes w) := fun _ => by simp [head, encode, rowOf]
theorem dsmpb (bits : List Bool) (w : Int) : Statement (.dsmpb bits w) := fun _ => by simp [head, encode, rowOf]
theorem epay (start count : Int) : Statement (.epay start count) := fun _ => by simp [head, encode, rowOf]
theorem lpay (start count : Int) (bytes : List Byte) : Statement (.lpay start count bytes) := fun _ => by simp [head, encode, rowOf]
theorem aclr : Statement .aclr := fun _ => by simp [head, encode, rowOf]
theorem aadd (s : Int) : Statement (.aadd s) := fun _ => by simp [head, encode, rowOf]
theorem amean : Statement .amean := fun _ => by simp [head, encode, rowOf]
theorem rzero (raw : Code) : Statement (.rzero raw) := fun _ => by simp [head, encode, rowOf]
theorem rspan (raw : Code) (m : Num) (u : MassUnit) : Statement (.rspan raw m u) := fun _ => by simp [head, encode, rowOf]
theorem ctare (raw : Code) : Statement (.ctare raw) := fun _ => by simp [head, encode, rowOf]
theorem tmass (raw : Code) : Statement (.tmass raw) := fun _ => by simp [head, encode, rowOf]
theorem tvolt (raw : Code) (bits : Int) (vref : Num) (gain : Int) : Statement (.tvolt raw bits vref gain) :=
  fun _ => by simp [head, encode, rowOf]

end Sys2Proof.Laws.TableRow
end

