-- ==== Sys2Proof/Laws/Pseudo.lean ====
section
/-! SUPPORT. How a sequence of operations runs: on after `Ok`, ending at the first `Err` (`30_encoding.md` R61). -/

set_option Elab.async false

namespace Sys2Proof.Machine

@[simp] theorem runUntilErr_nil (s : State) : runUntilErr [] s = .next s := rfl

/-- After an operation that does not raise an error the rest runs. -/
theorem runUntilErr_cons_ok {i : Instr} {s t : State} (l : List Instr) (h : exec i s = .next t)
    (ht : t.erred = false) : runUntilErr (i :: l) s = runUntilErr l t := by
  simp [runUntilErr, h, ht]

/-- An error ends the sequence. -/
theorem runUntilErr_cons_err {i : Instr} {s t : State} (l : List Instr) (h : exec i s = .next t)
    (ht : t.erred = true) : runUntilErr (i :: l) s = .next t := by
  simp [runUntilErr, h, ht]

/-- A sequence that ends without an error runs its first operation to the end, and then the rest. -/
theorem runUntilErr_cons_next {i : Instr} {l : List Instr} {s t : State} (h : runUntilErr (i :: l) s = .next t)
    (ht : t.erred = false) : ∃ u, exec i s = .next u ∧ u.erred = false ∧ runUntilErr l u = .next t := by
  cases he : exec i s with
  | next u =>
    cases hu : u.erred with
    | true =>
      rw [runUntilErr_cons_err l he hu] at h
      cases h
      rw [hu] at ht
      cases ht
    | false => exact ⟨u, rfl, hu, by rw [← runUntilErr_cons_ok l he hu, h]⟩
  | fault r => simp [runUntilErr, he] at h
  | refused r => simp [runUntilErr, he] at h

end Sys2Proof.Machine
end

