-- ==== Sys2Proof/Machine/DeviceView.lean ====
section
/-! DEFINITION. The decoded, user-facing view of the registers (DeviceConfig, `10_state.md` R21 (b)) and the meaning
of every field code (R14). It is a function of the registers and holds nothing of its own; no rule of the block
depends on it. PRESUMED: the meanings are general knowledge of the converter, log entry 10. -/

namespace Sys2Proof.Machine

/-- The code a field holds (DECF of its register, R66). -/
def fieldCode (r : Regs) (f : FieldId) : Nat :=
  (decodeField (Config.fieldTable f) (r.get (Config.fieldTable f).reg)).toNat

/-- Field codes the converter does not document; the block encodes them like any other (R14, U6). -/
def reservedCode : FieldId → Nat → Bool
  | .mux, v => v == 15
  | .dr, v => v == 7
  | .mode, v => v == 3
  | .i1mux, v => v == 7
  | .i2mux, v => v == 7
  | .rsvd, v => v == 1
  | .gain, _ | .pgaBypass, _ | .cm, _ | .ts, _ | .bcs, _ | .vref, _ | .fir, _ | .psw, _ | .idac, _ | .drdym, _ => false

/-- The pins the codes of MUX, I1MUX and I2MUX name. -/
inductive Pin where
  | ain0 | ain1 | ain2 | ain3 | avss | refp0 | refn0
  deriving DecidableEq, Repr

/-- The input the MUX field selects. -/
inductive InputSetting where
  | pair (positive negative : Pin)
  | referenceMonitor
  | supplyMonitor
  | shorted
  | reserved
  deriving DecidableEq, Repr

def inputOfCode : Nat → InputSetting
  | 0 => .pair .ain0 .ain1
  | 1 => .pair .ain0 .ain2
  | 2 => .pair .ain0 .ain3
  | 3 => .pair .ain1 .ain2
  | 4 => .pair .ain1 .ain3
  | 5 => .pair .ain2 .ain3
  | 6 => .pair .ain1 .ain0
  | 7 => .pair .ain3 .ain2
  | 8 => .pair .ain0 .avss
  | 9 => .pair .ain1 .avss
  | 10 => .pair .ain2 .avss
  | 11 => .pair .ain3 .avss
  | 12 => .referenceMonitor
  | 13 => .supplyMonitor
  | 14 => .shorted
  | _ => .reserved

/-- GAIN code g selects gain 2^g. -/
def gainOfCode (g : Nat) : Nat := 2 ^ g

/-- DR: samples per second in normal mode, lowest rate first; 7 is reserved. -/
def rateOfCode : Nat → Option Nat
  | 0 => some 20
  | 1 => some 45
  | 2 => some 90
  | 3 => some 175
  | 4 => some 330
  | 5 => some 600
  | 6 => some 1000
  | _ => none

/-- MODE. -/
inductive OperatingMode where
  | normal | dutyCycle | turbo | reserved
  deriving DecidableEq, Repr

def modeOfCode : Nat → OperatingMode
  | 0 => .normal
  | 1 => .dutyCycle
  | 2 => .turbo
  | _ => .reserved

/-- VREF: the source's options, in its order. -/
inductive ReferenceSource where
  | internal | externalDedicated | externalShared | supply
  deriving DecidableEq, Repr

def referenceOfCode : Nat → ReferenceSource
  | 0 => .internal
  | 1 => .externalDedicated
  | 2 => .externalShared
  | _ => .supply

/-- FIR: the source's options, in its order. -/
inductive FilterRejection where
  | off | both | hz50 | hz60
  deriving DecidableEq, Repr

def filterOfCode : Nat → FilterRejection
  | 0 => .off
  | 1 => .both
  | 2 => .hz50
  | _ => .hz60

/-- IDAC: microamperes, 0 for off. -/
def microampsOfCode : Nat → Nat
  | 0 => 0
  | 1 => 10
  | 2 => 50
  | 3 => 100
  | 4 => 250
  | 5 => 500
  | 6 => 1000
  | _ => 1500

/-- I1MUX and I2MUX: where a current source is routed. -/
inductive CurrentRoute where
  | disabled
  | toPin (p : Pin)
  | reserved
  deriving DecidableEq, Repr

def routeOfCode : Nat → CurrentRoute
  | 0 => .disabled
  | 1 => .toPin .ain0
  | 2 => .toPin .ain1
  | 3 => .toPin .ain2
  | 4 => .toPin .ain3
  | 5 => .toPin .refp0
  | 6 => .toPin .refn0
  | _ => .reserved

/-- The DeviceConfig (R13, R14, R21 (b)). -/
structure DeviceConfig where
  input            : InputSetting
  gain             : Nat
  pgaBypassed      : Bool
  samplesPerSecond : Option Nat
  mode             : OperatingMode
  continuous       : Bool
  temperature      : Bool
  burnOut          : Bool
  reference        : ReferenceSource
  filter           : FilterRejection
  lowSideSwitch    : Bool
  microamps        : Nat
  route1           : CurrentRoute
  route2           : CurrentRoute
  readyOnDataLine  : Bool
  reservedBit      : Bool
  deriving DecidableEq, Repr

/-- The decoded view of a RegisterSet. -/
def deviceConfig (r : Regs) : DeviceConfig where
  input            := inputOfCode (fieldCode r .mux)
  gain             := gainOfCode (fieldCode r .gain)
  pgaBypassed      := fieldCode r .pgaBypass == 1
  samplesPerSecond := rateOfCode (fieldCode r .dr)
  mode             := modeOfCode (fieldCode r .mode)
  continuous       := fieldCode r .cm == 1
  temperature      := fieldCode r .ts == 1
  burnOut          := fieldCode r .bcs == 1
  reference        := referenceOfCode (fieldCode r .vref)
  filter           := filterOfCode (fieldCode r .fir)
  lowSideSwitch    := fieldCode r .psw == 1
  microamps        := microampsOfCode (fieldCode r .idac)
  route1           := routeOfCode (fieldCode r .i1mux)
  route2           := routeOfCode (fieldCode r .i2mux)
  readyOnDataLine  := fieldCode r .drdym == 1
  reservedBit      := fieldCode r .rsvd == 1

end Sys2Proof.Machine
end

