-- ==== Sys2Proof/Tests/Slice0.lean ====
section
/-! SUPPORT. The model's own tests. Expected values are the spec's: `95_test_vectors.md` (V1 to V6, P1 to P5, S1 to
S9) and the examples of the rules named beside them. After them, a witness for the hypotheses of every statement. -/

set_option Elab.async false

namespace Sys2Proof.Tests

open Sys2Proof Sys2Proof.Machine

/-! ### Helpers -/

/-- The response an instruction ends with, run as one step on a state without an earlier response. -/
def answerOf (i : Instr) (s : State) : Option Response :=
  match exec i s with
  | .next t => t.response
  | .fault _ => none
  | .refused _ => none

/-- The block an instruction leaves. -/
def blockAfter (i : Instr) (s : State) : Option Block :=
  match exec i s with
  | .next t => some t.block
  | .fault _ => none
  | .refused _ => none

/-- The wire record an instruction leaves. -/
def wireAfter (i : Instr) (s : State) : Option WireFrame :=
  match exec i s with
  | .next t => t.wire
  | .fault _ => none
  | .refused _ => none

def refusalOf (i : Instr) (s : State) : Option Refusal :=
  match exec i s with
  | .refused q => some q
  | .next _ => none
  | .fault _ => none

/-- Reset, with the four registers given. -/
def withRegs (a b c d : Byte) : State := { State.reset with block := { Block.reset with regs := ⟨a, b, c, d⟩ } }

/-- Reset, with `sum` of `n` samples accumulated. -/
def accumulated (sum : Int) (n : Nat) : State :=
  { State.reset with block := { Block.reset with accSum := sum, accN := n } }

/-- V6's set-up A: `RZERO 1000; RSPAN 9000, 100, g`. -/
def calibrated : State :=
  { State.reset with block := { Block.reset with
      zeroCode := 1000, zeroValid := true, spanCode := 9000, spanValid := true, calMassKg := 1 / 10, calUnit := .g } }

/-- Set-up A with a tare of 1/200 kg. -/
def tared : State := { calibrated with block := { calibrated.block with tareKg := 1 / 200 } }

/-- Both points at code 7, the degenerate calibration of V6. -/
def degenerate : State :=
  { State.reset with block := { Block.reset with
      zeroCode := 7, zeroValid := true, spanCode := 7, spanValid := true, calMassKg := 1 / 10, calUnit := .g } }

/-- Reset, with `e` for the host to present. -/
def presenting (e : Encoded) : State := { State.reset with pending := [.present e] }

/-! ### Well-formedness: `rr` is 0 to 3 and a count is 1 to 4 (R47) -/

theorem test_wf_readReg_start_4 : (Instr.cmdReadReg 4 1).wf = false := by decide
theorem test_wf_readReg_count_0 : (Instr.cmdReadReg 0 0).wf = false := by decide
theorem test_wf_readReg_count_5 : (Instr.cmdReadReg 0 5).wf = false := by decide
theorem test_wf_writeReg_start_4 : (Instr.cmdWriteReg 4 1).wf = false := by decide
theorem test_wf_writeReg_count_0 : (Instr.cmdWriteReg 0 0).wf = false := by decide
theorem test_wf_writeReg_count_5 : (Instr.cmdWriteReg 0 5).wf = false := by decide

/-! ### Decoding: words written out from R46, R47, R55 to R58 -/

theorem test_decode_reset : decode (.command 0b00000110) = .ok .cmdReset := by decide
theorem test_decode_shutdown : decode (.command 0b00000010) = .ok .cmdShutdown := by decide
theorem test_decode_start : decode (.command 0b00001000) = .ok .cmdStart := by decide
theorem test_decode_readData : decode (.command 0b00010000) = .ok .cmdReadData := by decide
/-- V2: 0x29 is READ_REG start 2 count 2. -/
theorem test_decode_readReg : decode (.command 0b00101001) = .ok (.cmdReadReg 2 2) := by decide
/-- V2: 0x43 is WRITE_REG start 0 count 4. -/
theorem test_decode_writeReg : decode (.command 0b01000011) = .ok (.cmdWriteReg 0 4) := by decide
/-- V2's unassigned bytes. -/
theorem test_decode_unassigned : ∀ c ∈ ([0x07, 0x03, 0x09, 0x11, 0x00, 0x30, 0x50, 0xFF] : List Byte),
    decode (.command c) = .error (.unassignedCommand c) := by decide
theorem test_decode_encf : decode (.request 0x00 [.int 0x0E, .int 0, .int 8]) = .ok (.encf 0x0E .mux 8) := by decide
theorem test_decode_decf : decode (.request 0x01 [.int 0x80, .int 8]) = .ok (.decf 0x80 .vref) := by decide
/-- P1 row 2. -/
theorem test_decode_setf : decode (.request 0x02 [.int 1, .int 7]) = .ok (.setf .gain 7) := by decide
/-- P4 row 3. -/
theorem test_decode_getf : decode (.request 0x03 [.int 5]) = .ok (.getf .cm) := by decide
/-- P4 row 1. -/
theorem test_decode_bcmd : decode (.request 0x04 [.int 4, .int 0, .int 4]) = .ok (.bcmd .readReg 0 4) := by decide
/-- P1 row 9. -/
theorem test_decode_dsmp :
    decode (.request 0x05 [.ints [0x12, 0x34, 0x56], .int 24]) = .ok (.dsmp [0x12, 0x34, 0x56] 24) := by decide
theorem test_decode_dsmpb : decode (.request 0x06 [.ints [0, 1], .int 16]) = .ok (.dsmpb [false, true] 16) := by
  decide
/-- P1 row 6. -/
theorem test_decode_epay : decode (.request 0x07 [.int 0, .int 4]) = .ok (.epay 0 4) := by decide
theorem test_decode_lpay :
    decode (.request 0x08 [.int 1, .int 2, .ints [0xC4, 0x56]]) = .ok (.lpay 1 2 [0xC4, 0x56]) := by decide
theorem test_decode_aclr : decode (.request 0x09 []) = .ok .aclr := by decide
/-- P2 row 3. -/
theorem test_decode_aadd : decode (.request 0x0A [.int (-10)]) = .ok (.aadd (-10)) := by decide
theorem test_decode_amean : decode (.request 0x0B []) = .ok .amean := by decide
theorem test_decode_rzero : decode (.request 0x0C [.num 1000]) = .ok (.rzero 1000) := by decide
/-- P3 row 2: unit code 1 is g. -/
theorem test_decode_rspan : decode (.request 0x0D [.num 9000, .num 100, .int 1]) = .ok (.rspan 9000 100 .g) := by
  decide
theorem test_decode_ctare : decode (.request 0x0E [.num 1400]) = .ok (.ctare 1400) := by decide
theorem test_decode_tmass : decode (.request 0x0F [.num 5]) = .ok (.tmass 5) := by decide
theorem test_decode_tvolt :
    decode (.request 0x10 [.num 4194304, .int 24, .num (256 / 125), .int 128]) =
      .ok (.tvolt 4194304 24 (256 / 125) 128) := by decide +kernel

/-- U1: a byte above 255, a bit that is neither 0 nor 1, an operand of the wrong kind. -/
theorem test_decode_bad_operands :
    decode (.request 0x05 [.ints [256], .int 24]) = .error (.notAByte 256) ∧
    decode (.request 0x06 [.ints [2], .int 16]) = .error (.notABit 2) ∧
    decode (.request 0x0A [.num 1]) = .error (.operandShape 0x0A) := by decide

/-- The opcode table's words: every host row, and the two command rows whose byte is no selector. -/
theorem test_table_words :
    decodeTableWord 8 0x00 = some (.encf 0x00 .mux 0) ∧ decodeTableWord 8 0x09 = some .aclr ∧
    decodeTableWord 8 0x10 = some (.tvolt 0 0 0 0) ∧ decodeTableWord 8 0x20 = some (.cmdReadReg 0 1) ∧
    decodeTableWord 8 0x40 = some (.cmdWriteReg 0 1) ∧ decodeTableWord 8 0x11 = none := by decide

/-! ### Steps and reset -/

/-- A table word placed where the host presents next is what the next step runs. -/
theorem test_step_runs_table_word :
    step (State.reset.withFetchWord 8 0x40) = exec (.cmdWriteReg 0 1) State.reset := rfl

/-- R175: the reset event empties the accumulator and answers nothing. -/
theorem test_reset_event :
    step { accumulated 10 1 with pending := [.resetEvent] } = .next State.reset := rfl

theorem test_reset_registers : State.reset.block.regs = ⟨0x00, 0x00, 0x00, 0x00⟩ := by decide

/-- R22: the decoded reset configuration. -/
theorem test_reset_device_view :
    (deviceConfig State.reset.block.regs).input = .pair .ain0 .ain1 ∧
    (deviceConfig State.reset.block.regs).gain = 1 ∧
    (deviceConfig State.reset.block.regs).samplesPerSecond = some 20 ∧
    (deviceConfig State.reset.block.regs).reference = .internal := by decide

/-- P1: the registers for gain 128, external-shared reference and the lowest rate. -/
theorem test_device_view_P1 :
    (deviceConfig ⟨0x0E, 0x00, 0x80, 0x00⟩).gain = 128 ∧
    (deviceConfig ⟨0x0E, 0x00, 0x80, 0x00⟩).reference = .externalShared ∧
    (deviceConfig ⟨0x0E, 0x00, 0x80, 0x00⟩).samplesPerSecond = some 20 := by decide

/-! ### Wire commands (R83 to R88) -/

theorem test_exec_reset_keeps_registers :
    blockAfter .cmdReset (withRegs 0x0E 0x04 0x80 0x02) = some (withRegs 0x0E 0x04 0x80 0x02).block ∧
    wireAfter .cmdReset State.reset = some ⟨0x06, .nothing⟩ := by decide
theorem test_exec_shutdown : wireAfter .cmdShutdown State.reset = some ⟨0x02, .nothing⟩ := by decide
theorem test_exec_start : wireAfter .cmdStart State.reset = some ⟨0x08, .nothing⟩ := by decide
theorem test_exec_readData : wireAfter .cmdReadData State.reset = some ⟨0x10, .sampleFromChip⟩ := by decide
/-- R87's example, and V2's 0x2F, which is built although it runs past the last register. -/
theorem test_exec_readReg :
    wireAfter (.cmdReadReg 0 4) State.reset = some ⟨0x23, .registersFromChip 4⟩ ∧
    wireAfter (.cmdReadReg 3 4) State.reset = some ⟨0x2F, .registersFromChip 4⟩ := by decide
/-- R88's example: the wire carries `[0x44, 0x04]`. -/
theorem test_exec_writeReg :
    wireAfter (.cmdWriteReg 1 1) (withRegs 0x00 0x04 0x00 0x00) = some ⟨0x44, .payloadToChip [0x04]⟩ := by
  decide
/-- R88: EPAY's error when the burst runs past register 3. -/
theorem test_exec_writeReg_past_end :
    answerOf (.cmdWriteReg 3 2) State.reset = some (.err .invalidAddress) := by decide

/-! ### Register Model (V1, V2) -/

theorem test_encf :
    answerOf (.encf 0xFF .gain 0) State.reset = some (.ok (.byte 0xF1)) ∧
    answerOf (.encf 0x0E .mux 8) State.reset = some (.ok (.byte 0x8E)) ∧
    answerOf (.encf 0xE3 .i2mux 6) State.reset = some (.ok (.byte 0xFB)) ∧
    answerOf (.encf 0xC7 .fir 1) State.reset = some (.ok (.byte 0xD7)) := by decide
theorem test_encf_outside :
    answerOf (.encf 0x00 .gain 8) State.reset = some (.err .outOfRange) ∧
    answerOf (.encf 0x00 .gain (-1)) State.reset = some (.err .outOfRange) := by decide
theorem test_decf :
    answerOf (.decf 0xA5 .mux) State.reset = some (.ok (.int 10)) ∧
    answerOf (.decf 0xA5 .gain) State.reset = some (.ok (.int 2)) ∧
    answerOf (.decf 0xC4 .dr) State.reset = some (.ok (.int 6)) ∧
    answerOf (.decf 0x56 .idac) State.reset = some (.ok (.int 6)) ∧
    answerOf (.decf 0x9A .i2mux) State.reset = some (.ok (.int 6)) := by decide
/-- P4 row 5: CM is kept. -/
theorem test_setf :
    blockAfter (.setf .dr 6) (withRegs 0x0E 0x04 0x80 0x00) = some (withRegs 0x0E 0xC4 0x80 0x00).block := by
  decide
/-- P4 row 4. -/
theorem test_setf_outside :
    answerOf (.setf .dr 8) State.reset = some (.err .outOfRange) ∧
    blockAfter (.setf .dr 8) State.reset = some State.reset.block := by decide
/-- R71's example. -/
theorem test_getf :
    answerOf (.getf .vref) (withRegs 0x00 0x00 0x80 0x00) = some (.ok (.int 2)) ∧
    answerOf (.getf .idac) (withRegs 0x00 0x00 0x80 0x00) = some (.ok (.int 0)) := by decide
theorem test_bcmd :
    answerOf (.bcmd .writeReg 0 4) State.reset = some (.ok (.byte 0x43)) ∧
    answerOf (.bcmd .readReg 2 2) State.reset = some (.ok (.byte 0x29)) ∧
    answerOf (.bcmd .writeReg 3 4) State.reset = some (.ok (.byte 0x4F)) ∧
    answerOf (.bcmd .reset 9 9) State.reset = some (.ok (.byte 0x06)) := by decide
theorem test_bcmd_outside :
    answerOf (.bcmd .writeReg 0 5) State.reset = some (.err .invalidAddress) ∧
    answerOf (.bcmd .readReg (-1) 1) State.reset = some (.err .invalidAddress) := by decide

/-! ### Frame Codec (V3, V4) -/

theorem test_dsmp :
    answerOf (.dsmp [0x12, 0x34, 0x56] 24) State.reset = some (.ok (.int 1193046)) ∧
    answerOf (.dsmp [0xAB, 0xCD, 0xEF] 24) State.reset = some (.ok (.int (-5517841))) ∧
    answerOf (.dsmp [0x80, 0x00, 0x00] 24) State.reset = some (.ok (.int (-8388608))) ∧
    answerOf (.dsmp [0xFE, 0x0C] 16) State.reset = some (.ok (.int (-500))) := by decide
theorem test_dsmp_bad :
    answerOf (.dsmp [0x12, 0x34] 24) State.reset = some (.err .frameTooShort) ∧
    answerOf (.dsmp [] 0) State.reset = some (.err .outOfRange) ∧
    refusalOf (.dsmp [0x12, 0x34, 0x56, 0x78] 24) State.reset = some .overlongFrame := by decide
/-- A one then 15 zeros, and 23 zeros then a one. -/
theorem test_dsmpb :
    answerOf (.dsmpb (true :: List.replicate 15 false) 16) State.reset = some (.ok (.int (-32768))) ∧
    answerOf (.dsmpb (List.replicate 23 false ++ [true]) 24) State.reset = some (.ok (.int 1)) := by decide
theorem test_dsmpb_short :
    answerOf (.dsmpb (List.replicate 23 true) 24) State.reset = some (.err .frameTooShort) := by decide
theorem test_epay :
    answerOf (.epay 1 3) (withRegs 0x0E 0x04 0x80 0x02) = some (.ok (.bytes [0x04, 0x80, 0x02])) ∧
    answerOf (.epay 3 1) (withRegs 0x0E 0x04 0x80 0x02) = some (.ok (.bytes [0x02])) := by decide
theorem test_epay_outside :
    answerOf (.epay 3 2) State.reset = some (.err .invalidAddress) ∧
    answerOf (.epay 0 0) State.reset = some (.err .invalidAddress) := by decide
theorem test_lpay :
    blockAfter (.lpay 1 2 [0xC4, 0x56]) State.reset = some (withRegs 0x00 0xC4 0x56 0x00).block := by decide
theorem test_lpay_bad :
    answerOf (.lpay 0 4 [1, 2, 3]) State.reset = some (.err .frameTooShort) ∧
    answerOf (.lpay 4 1 []) State.reset = some (.err .invalidAddress) ∧
    refusalOf (.lpay 0 1 [1, 2]) State.reset = some .overlongPayload := by decide

/-! ### Averaging (V5) -/

theorem test_aclr : blockAfter .aclr (accumulated 30 2) = some State.reset.block := by decide
/-- The sum does not wrap at 24 bits. -/
theorem test_aadd :
    blockAfter (.aadd 8388607) (accumulated 8388607 1) = some (accumulated 16777214 2).block := by decide
theorem test_aadd_outside :
    answerOf (.aadd 8388608) State.reset = some (.err .outOfRange) ∧
    answerOf (.aadd (-8388609)) State.reset = some (.err .outOfRange) := by decide
theorem test_amean :
    answerOf .amean (accumulated 1 4) = some (.ok (.num (1 / 4))) ∧
    answerOf .amean (accumulated (-3) 2) = some (.ok (.num (-3 / 2))) := by decide +kernel
theorem test_amean_empty : answerOf .amean State.reset = some (.err .outOfRange) := by decide

/-! ### Calibration (V6) -/

theorem test_rzero :
    blockAfter (.rzero 1000) State.reset = some { Block.reset with zeroCode := 1000, zeroValid := true } := by
  decide
theorem test_rspan :
    (blockAfter (.rspan 9000 100 .g) State.reset).map (fun b => (b.spanCode, b.calMassKg, b.calUnit, b.spanValid)) =
      some (9000, 1 / 10, .g, true) ∧
    (blockAfter (.rspan 9000 250000 .mg) State.reset).map (fun b => b.calMassKg) = some (1 / 4) := by decide +kernel
/-- The new tare replaces the old one. -/
theorem test_ctare :
    blockAfter (.ctare 1400) calibrated = some tared.block ∧
    blockAfter (.ctare 1000) tared = some calibrated.block := by decide +kernel
theorem test_ctare_bad :
    answerOf (.ctare 0) State.reset = some (.err .calibrationIncomplete) ∧
    answerOf (.ctare 7) degenerate = some (.err .divisionByZero) := by decide
/-- S4, then 45 g after the tare of 5 g. -/
theorem test_tmass :
    answerOf (.tmass 1000) calibrated = some (.ok (.num 0)) ∧
    answerOf (.tmass 9000) calibrated = some (.ok (.num (1 / 10))) ∧
    answerOf (.tmass (10001 / 2)) calibrated = some (.ok (.num (8001 / 160000))) ∧
    answerOf (.tmass 5000) tared = some (.ok (.num (9 / 200))) := by decide +kernel
/-- S5, S6. -/
theorem test_tmass_bad :
    answerOf (.tmass 5) State.reset = some (.err .calibrationIncomplete) ∧
    answerOf (.tmass 7) degenerate = some (.err .divisionByZero) := by decide
theorem test_tvolt :
    answerOf (.tvolt 4194304 24 (256 / 125) 128) State.reset = some (.ok (.num (1 / 125))) ∧
    answerOf (.tvolt (-32768) 16 (33 / 10) 1) State.reset = some (.ok (.num (-33 / 10))) := by decide +kernel
theorem test_tvolt_outside :
    answerOf (.tvolt 1 12 (256 / 125) 1) State.reset = some (.err .outOfRange) ∧
    answerOf (.tvolt 1 24 (256 / 125) 3) State.reset = some (.err .outOfRange) ∧
    answerOf (.tvolt 1 24 (256 / 125) 0) State.reset = some (.err .outOfRange) := by decide

/-! ### Expansions -/

/-- P1 rows 5 and 6: `43 0E 00 80 00`; P4 rows 8 and 9: no frame past register 3. -/
theorem test_write_frame :
    writeFrameBytes ⟨0x0E, 0x00, 0x80, 0x00⟩ 0 4 = .ok [0x43, 0x0E, 0x00, 0x80, 0x00] ∧
    writeFrameBytes ⟨0x0E, 0x00, 0x80, 0x00⟩ 3 2 = .error .invalidAddress := by decide

/-- R72: `SETF GAIN, 7; SETF VREF, 2; SETF DR, 0; CONFIGURE` from reset. -/
theorem test_configure :
    (match runUntilErr (configureFields [(.gain, 7), (.vref, 2), (.dr, 0)]) State.reset with
      | .next t => (some t.block.regs, t.response)
      | .fault _ => (none, none)
      | .refused _ => (none, none)) =
    (some ⟨0x0E, 0x00, 0x80, 0x00⟩, some (.ok (.bytes [0x0E, 0x00, 0x80, 0x00]))) := by decide

/-- S7, and P2's short frame, which ends the reading. -/
theorem test_read_averaged :
    (match readAveraged 24 [[0, 0, 10], [0, 0, 20], [0, 0, 30], [0, 0, 40]] State.reset with
      | .next t => t.response
      | .fault _ => none
      | .refused _ => none) = some (.ok (.num 25)) ∧
    (match readAveraged 24 [[0xFF, 0xFF, 0xF6], [0, 0]] State.reset with
      | .next t => t.response
      | .fault _ => none
      | .refused _ => none) = some (.err .frameTooShort) := by decide +kernel

/-! ### Witnesses: a concrete state and operands that meet the hypotheses of each statement, clause by clause -/

theorem admissible : OpcodeBytesAdmissible Config.opcodeByte := by
  refine ⟨fun o => ?_, fun o p => ?_, fun o p => ?_⟩
  · cases o <;> decide
  · cases o <;> cases p <;> decide
  · cases o <;> cases p <;> decide

/-- Every field, listed. -/
def fields : List FieldId :=
  [.mux, .gain, .pgaBypass, .dr, .mode, .cm, .ts, .bcs, .vref, .fir, .psw, .idac, .i1mux, .i2mux, .drdym, .rsvd]

theorem partitions : Partitions Config.fieldTable := by
  refine ⟨fun f => by cases f <;> decide, fun a i => ?_⟩
  have h : ∀ (a : Fin 4) (i : Fin 8), ∃ f ∈ fields, (Config.fieldTable f).Holds a i ∧
      ∀ g ∈ fields, (Config.fieldTable g).Holds a i → g = f := by decide
  obtain ⟨f, -, hf, hg⟩ := h a i
  exact ⟨f, hf, fun g => hg g (by cases g <;> decide)⟩

theorem rnd_exact : ∀ x, Config.rnd x = x := fun _ => rfl

theorem witness_DecodeOfEncodeIsInstruction : (Instr.cmdWriteReg 3 4).wf = true := by decide
theorem witness_EncodeOfDecodeIsWord : decode (.command 0x4F) = .ok (.cmdWriteReg 3 4) := by decide
theorem witness_CommandByteClassification : OpcodeBytesAdmissible Config.opcodeByte ∧ 255 < 256 :=
  ⟨admissible, by decide⟩
theorem witness_UnassignedRequestsRefused :
    0x10 < (0x11 : Byte).toNat ∧ ((-1 : Int) < 0 ∧ (5 : Int) < 6) ∧ (15 : Int) < 16 ∧ (3 : Int) < 4 ∧
    (presenting (.request 0x11 [])).pending = [.present (.request 0x11 [])] ∧
    decode (.request 0x11 []) = .error (.unassignedSelector 0x11) := by decide
theorem witness_StepRunsDecodedInstruction :
    (presenting (.request 0x09 [])).pending = [.present (.request 0x09 [])] ∧
    decode (.request 0x09 []) = .ok .aclr ∧ State.reset.pending = [] := by decide
theorem witness_ResetEventResetsBlock : ({ tared with pending := [.resetEvent] } : State).pending = [.resetEvent] := rfl
theorem witness_EncfReplacesField :
    ((0 : Int) ≤ 7 ∧ (7 : Int) < 2 ^ (Config.fieldTable .gain).width) ∧
    (((-1 : Int) < 0) ∧ (2 : Int) ^ (Config.fieldTable .gain).width ≤ 8) := by decide
theorem witness_SetfReplacesFieldOfRegister :
    ((0 : Int) ≤ 15 ∧ (15 : Int) < 2 ^ (Config.fieldTable .mux).width) ∧
    (((-1 : Int) < 0) ∧ (2 : Int) ^ (Config.fieldTable .mux).width ≤ 16) := by decide
theorem witness_FieldRoundTripLaw :
    Partitions Config.fieldTable ∧ (0 : Int) ≤ 15 ∧ (15 : Int) < 2 ^ (Config.fieldTable .mux).width :=
  ⟨partitions, by decide, by decide⟩
theorem witness_WritingBackChangesNothing : Partitions Config.fieldTable := partitions
theorem witness_SetfThenGetfReturnsValue :
    ∃ t, exec (.setf .gain 7) State.reset = .next t ∧ t.response = some (.ok .none) ∧
      FieldId.mux ≠ .gain ∧
      exec (.getf .mux) State.reset = .next { State.reset with response := some (.ok (.int 0)) } :=
  ⟨_, rfl, rfl, by decide, rfl⟩
theorem witness_SetfOfDifferentFieldsCommute :
    FieldId.gain ≠ .mux ∧ (0 : Int) ≤ 7 ∧ (7 : Int) < 2 ^ (Config.fieldTable .gain).width ∧
    (0 : Int) ≤ 15 ∧ (15 : Int) < 2 ^ (Config.fieldTable .mux).width := by decide
theorem witness_BcmdBuildsCommandByte :
    (OpcodeId.writeReg.registerAccess = true ∧ (0 : Int) ≤ 3 ∧ (3 : Int) ≤ 3 ∧ (1 : Int) ≤ 4 ∧ (4 : Int) ≤ 4) ∧
    ((-1 : Int) < 0 ∧ (3 : Int) < 4 ∧ (0 : Int) < 1 ∧ (4 : Int) < 5) ∧
    OpcodeId.reset.registerAccess = false := by decide
theorem witness_CommandLowNibbleLaw :
    OpcodeBytesAdmissible Config.opcodeByte ∧ (OpcodeId.writeReg = .readReg ∨ OpcodeId.writeReg = .writeReg) ∧
    (0 : Int) ≤ 3 ∧ (3 : Int) ≤ 3 ∧ (1 : Int) ≤ 4 ∧ (4 : Int) ≤ 4 := ⟨admissible, by decide⟩
theorem witness_CommandOperandsRecoverable :
    OpcodeBytesAdmissible Config.opcodeByte ∧ OpcodeId.readReg.registerAccess = true ∧
    ((0 : Int) ≤ 0 ∧ (0 : Int) ≤ 3 ∧ (1 : Int) ≤ 1 ∧ (1 : Int) ≤ 4) ∧
    buildCommand Config.opcodeByte .readReg 3 4 = .ok 0x2F := ⟨admissible, by decide⟩
theorem witness_RegisterCommandsTouchNoState :
    (3 ≤ 3 ∧ 1 ≤ 4 ∧ 4 ≤ 4) ∧ (1 ≤ 1 ∧ 3 + 1 ≤ 4) ∧ (3 < 4 ∧ 0 < 1 ∧ 4 < 5) ∧ 4 < 3 + 2 := by decide
theorem witness_FollowingBytesKnownFromByte :
    (decode (.command 0x4D) = .ok (.cmdWriteReg 3 2) ∧ (0x4D : Byte) &&& 0xF0 = Config.opcodeByte .writeReg ∧
      4 < (0x4D : Byte).toNat / 4 % 4 + ((0x4D : Byte).toNat % 4 + 1)) ∧
    decode (.command 0x10) = .ok .cmdReadData ∧ ¬ (0x10 : Byte) &&& 0xF0 = Config.opcodeByte .writeReg := by
  decide
theorem witness_DsmpDecodesByteFrame :
    ((8 : Int) ≠ 16 ∧ (8 : Int) ≠ 24) ∧ ([0x12] : List Byte).length < 2 ∧
    2 < ([0x12, 0x34, 0x56] : List Byte).length ∧
    (∃ b0 b1 : Byte, ([0x80, 0x00] : List Byte) = [b0, b1]) ∧
    ∃ b0 b1 b2 : Byte, ([0x80, 0x00, 0x00] : List Byte) = [b0, b1, b2] :=
  ⟨by decide, by decide, by decide, ⟨_, _, rfl⟩, _, _, _, rfl⟩
theorem witness_DsmpbDecodesBitFrame :
    ((8 : Int) ≠ 16 ∧ (8 : Int) ≠ 24) ∧ ((List.replicate 15 true).length : Int) < 16 ∧
    (24 : Int) < ((List.replicate 25 true).length : Int) ∧ (List.replicate 16 true).length = 16 ∧
    65535 = ((List.range 16).map fun k => ((List.replicate 16 true).getD k false).toNat * 2 ^ (16 - 1 - k)).sum := by
  decide
theorem witness_SignExtensionLaw :
    (8 * ([0x80, 0x00, 0x01] : List Byte).length = 24 ∧
      8388609 = ([0x80, 0x00, 0x01] : List Byte).foldl (fun u b => u * 256 + b.toNat) 0) ∧
    (List.replicate 16 true).length = 16 ∧
    65535 = (List.replicate 16 true).foldl (fun u b => u * 2 + b.toNat) 0 := by decide
theorem witness_FrameDecodingIsBijection :
    ([0x80, 0x00] : List Byte).length = 2 ∧ ([0x7F, 0xFF, 0xFF] : List Byte).length = 3 ∧
    (-(2 ^ (8 * 2 - 1)) ≤ (-32768 : Int) ∧ (-32768 : Int) ≤ 2 ^ (8 * 2 - 1) - 1) := by decide
theorem witness_BitFormAgreesWithByteForm : (8 * ([0x12, 0x34, 0x56] : List Byte).length : Int) = 24 := by decide
theorem witness_EpayReturnsRegisters :
    ((0 : Int) ≤ 0 ∧ (1 : Int) ≤ 4 ∧ (0 : Int) + 4 ≤ 4) ∧ (4 : Int) < 3 + 2 := by decide
theorem witness_LpayLoadsRegisters :
    ((0 : Int) ≤ 3 ∧ (1 : Int) ≤ 1 ∧ (3 : Int) + 1 ≤ 4 ∧ (([0xC4] : List Byte).length : Int) = 1) ∧
    (3 : Int) < 4 ∧ (([] : List Byte).length : Int) < 1 ∧ (1 : Int) < (([1, 2] : List Byte).length : Int) := by decide
theorem witness_LpayThenEpayReturnsPayload :
    (0 : Int) ≤ 2 ∧ (1 : Int) ≤ 2 ∧ (2 : Int) + 2 ≤ 4 ∧ (([1, 2] : List Byte).length : Int) = 2 := by decide
theorem witness_AaddAccumulatesSample :
    (-(2 ^ 23) ≤ (-8388608 : Int) ∧ (-8388608 : Int) ≤ 2 ^ 23 - 1) ∧ (2 ^ 23 - 1 < (8388608 : Int)) ∧
    (-8388609 : Int) < -(2 ^ 23) := by decide
theorem witness_AmeanDividesOnce :
    (accumulated 7 1).block.accN ≠ 0 ∧ State.reset.block.accN = 0 := by decide
theorem witness_AverageIsSumDividedOnce : ∀ z ∈ ([-8388608, 8388607] : List Int), -(2 ^ 23) ≤ z ∧ z ≤ 2 ^ 23 - 1 := by
  decide
theorem witness_AaddOrderIrrelevant :
    ([1, 2] : List Int).Perm [2, 1] ∧ ∀ z ∈ ([1, 2] : List Int), -(2 ^ 23) ≤ z ∧ z ≤ 2 ^ 23 - 1 := by decide
theorem witness_DecodedSamplesAccumulate :
    (∃ bytes w, (Instr.dsmp [0x80, 0x00] 16) = .dsmp bytes w) ∧
    ∃ t z, exec (.dsmp [0x80, 0x00] 16) State.reset = .next t ∧ t.response = some (.ok (.int z)) :=
  ⟨⟨_, _, rfl⟩, _, _, rfl, rfl⟩
theorem witness_RspanRecordsSpan :
    (MassUnit.ug, (1 / 1000000000 : Rat)) ∈
      [(MassUnit.kg, (1 : Rat)), (.g, 1 / 1000), (.mg, 1 / 1000000), (.ug, 1 / 1000000000)] := by simp
theorem witness_CtareStoresUntaredMass :
    (calibrated.block.zeroValid = true ∧ calibrated.block.spanValid = true ∧
      calibrated.block.spanCode ≠ calibrated.block.zeroCode) ∧
    (State.reset.block.zeroValid = false ∧ State.reset.block.spanValid = false) ∧
    degenerate.block.zeroValid = true ∧ degenerate.block.spanValid = true ∧
    degenerate.block.spanCode = degenerate.block.zeroCode := by decide
theorem witness_TmassConvertsToMass :
    (∃ slope intercept : Rat, calibrated.block.zeroValid = true ∧ calibrated.block.spanValid = true ∧
      calibrated.block.spanCode ≠ calibrated.block.zeroCode ∧
      slope = Config.rnd (calibrated.block.calMassKg / Config.rnd (calibrated.block.spanCode - calibrated.block.zeroCode)) ∧
      intercept = Config.rnd (Config.rnd (0 - slope) * calibrated.block.zeroCode)) ∧
    State.reset.block.spanValid = false ∧ degenerate.block.spanCode = degenerate.block.zeroCode :=
  ⟨⟨_, _, rfl, rfl, by decide, rfl, rfl⟩, rfl, rfl⟩
theorem witness_TvoltConvertsToVoltage :
    (((24 : Int), (8388608 : Rat)) ∈ [((16 : Int), (32768 : Rat)), (24, 8388608)] ∧
      (128 : Int) ∈ [(1 : Int), 2, 4, 8, 16, 32, 64, 128]) ∧
    ((12 : Int) ≠ 16 ∧ (12 : Int) ≠ 24) ∧ (256 : Int) ∉ [(1 : Int), 2, 4, 8, 16, 32, 64, 128] := by simp
theorem witness_MassIsTwoPointLine :
    (∀ x, Config.rnd x = x) ∧ tared.block.zeroValid = true ∧ tared.block.spanValid = true ∧
    tared.block.spanCode ≠ tared.block.zeroCode ∧
    answerOf (.tmass 5000) tared = some (.ok (.num (9 / 200))) :=
  ⟨rnd_exact, rfl, rfl, by decide, by decide +kernel⟩
theorem witness_TareZeroesItsCode :
    (∀ x, Config.rnd x = x) ∧ tared.block.zeroValid = true ∧ tared.block.spanValid = true ∧
    tared.block.spanCode ≠ tared.block.zeroCode := ⟨rnd_exact, rfl, rfl, by decide⟩
theorem witness_MeanOfMassesIsMassOfMean :
    (∀ x, Config.rnd x = x) ∧ ([1000, 9000] : List Rat) ≠ [] ∧ tared.block.zeroValid = true ∧
    tared.block.spanValid = true ∧ tared.block.spanCode ≠ tared.block.zeroCode :=
  ⟨rnd_exact, by simp, rfl, rfl, by decide⟩
theorem witness_ErrorChangesNothing :
    ∃ t, exec (.setf .gain 8) tared = .next t ∧ t.response = some (.err .outOfRange) ∧
      (Instr.setf .gain 8).isWire = false := ⟨_, rfl, rfl, rfl⟩
theorem witness_AfterErrorAsIfNotIssued :
    (Instr.setf .gain 8).isWire = false ∧ (Instr.getf .gain).isWire = false ∧
    ∃ t, exec (.setf .gain 8) tared = .next t ∧ t.response = some (.err .outOfRange) := ⟨rfl, rfl, _, rfl, rfl⟩
theorem witness_ErrorsOnlyAsListed :
    (Instr.tmass 7).isWire = false ∧ ∃ t, exec (.tmass 7) State.reset = .next t ∧
      t.response = some (.err .calibrationIncomplete) := ⟨rfl, _, rfl, rfl⟩
theorem witness_EveryRequestAnsweredUnlessOverlong :
    (Instr.lpay 0 1 [1, 2]).isWire = false ∧ Overlong (.lpay 0 1 [1, 2]) ∧
    (Instr.lpay 0 1 [1]).isWire = false ∧ ¬ Overlong (.lpay 0 1 [1]) := by decide
theorem witness_ElementsWrittenOnlyByTheirOperations :
    (∃ t, exec (.setf .gain 7) State.reset = .next t ∧ t.block.regs ≠ State.reset.block.regs) ∧
    (∃ t, exec (.rzero 1) State.reset = .next t ∧ t.block.zeroValid ≠ State.reset.block.zeroValid) ∧
    (∃ t, exec (.rspan 1 1 .g) State.reset = .next t ∧ t.block.calUnit ≠ State.reset.block.calUnit) ∧
    (∃ t, exec (.ctare 1000) tared = .next t ∧ t.block.tareKg ≠ tared.block.tareKg) ∧
    ∃ t, exec (.aadd 7) State.reset = .next t ∧ t.block.accN ≠ State.reset.block.accN :=
  ⟨⟨_, rfl, by decide⟩, ⟨_, rfl, by decide⟩, ⟨_, rfl, by decide⟩, ⟨_, rfl, by decide +kernel⟩,
    ⟨_, rfl, by decide⟩⟩
theorem witness_PureOperationsIgnoreState : isPureOp (.dsmp [0x80, 0x00] 16) = true := rfl
theorem witness_ReadsAreIdempotent :
    (∃ raw, Instr.tmass 5000 = .tmass raw) ∧ ∃ t, exec (.tmass 5000) tared = .next t := ⟨⟨_, rfl⟩, _, rfl⟩
theorem witness_FlagsSetByRecordingClearedByReset :
    (∃ t, step { tared with pending := [.resetEvent] } = .next t ∧
      tared.block.zeroValid = true ∧ t.block.zeroValid = false ∧ tared.block.spanValid = true ∧
      t.block.spanValid = false) ∧
    (∃ t, step (presenting (.request 0x0C [.num 1])) = .next t ∧
      State.reset.block.zeroValid = false ∧ t.block.zeroValid = true ∧
      decode (.request 0x0C [.num 1]) = .ok (.rzero 1)) ∧
    ∃ t, step (presenting (.request 0x0D [.num 1, .num 1, .int 3])) = .next t ∧
      State.reset.block.spanValid = false ∧ t.block.spanValid = true ∧
      decode (.request 0x0D [.num 1, .num 1, .int 3]) = .ok (.rspan 1 1 .ug) :=
  ⟨⟨_, rfl, rfl, rfl, rfl, rfl⟩, ⟨_, rfl, rfl, rfl, rfl⟩, _, rfl, rfl, rfl, rfl⟩
/-- Two states that differ in an element no operation can read. -/
theorem witness_UnreadableElementsDoNotMatter :
    State.SameReadable State.reset { State.reset with block := { Block.reset with zeroCode := 5 } } ∧
    State.reset ≠ { State.reset with block := { Block.reset with zeroCode := 5 } } := by decide
theorem witness_StepKeepsInvariant :
    State.Inv (accumulated (-8388608) 1) ∧ ∃ t, step { accumulated (-8388608) 1 with
      pending := [.present (.request 0x0A [.int (-8388608)])] } = .next t ∧ t.block.accSum = -16777216 :=
  ⟨by decide, _, rfl, rfl⟩

end Sys2Proof.Tests
end

section
/-! PROOFS of the family `00_scope.md`: what a step does, by what the host presents next. -/

namespace Sys2Proof.Machine

/-- The idle step of log entry 3. -/
theorem step_of_pending_nil {s : State} (hp : s.pending = []) : step s = .next s := by
  have hf : fetch s = .idle := by simp [fetch, hp]
  simp [step, hf]

/-- R8 and R38: one presented input, one instruction performed; the inputs behind it wait their turn. -/
theorem step_of_decode_ok {s : State} {e : Encoded} {rest : List HostInput} {i : Instr}
    (hp : s.pending = .present e :: rest) (hd : decode e = .ok i) : step s = exec i (s.withPending rest) := by
  have hf : fetch s = .run i (s.withPending rest) := by simp [fetch, hp, hd]
  simp [step, hf]

/-- Settles O6: `fetch` hands `step` the decoded instruction with the rest of the host's list, or idles. -/
theorem stepRunsDecodedInstruction : Obligations.StepRunsDecodedInstruction :=
  ⟨fun _ _ _ _ hp hd => step_of_decode_ok hp hd, fun _ hp => step_of_pending_nil hp⟩

end Sys2Proof.Machine
end

section
/-! PROOFS of the family `10_state.md`: who writes and who reads each state element, and what every step keeps. -/

namespace Sys2Proof.Machine

/-! ### The two steps that run no instruction -/

/-- R175: the reset event is taken off the host's list and puts the block to its reset values. -/
theorem step_of_resetEvent {s : State} {rest : List HostInput} (hp : s.pending = .resetEvent :: rest) :
    step s = .next (resetBlock (s.withPending rest)) := by
  have hf : fetch s = .resetEvent (s.withPending rest) := by simp [fetch, hp]
  simp [step, hf]

/-- R59: an input that spells no operation is refused with the decoder's reason. -/
theorem step_of_decode_error {s : State} {e : Encoded} {rest : List HostInput} {err : DecodeError}
    (hp : s.pending = .present e :: rest) (hd : decode e = .error err) : step s = .refused (.noOperation err) := by
  have hf : fetch s = .reject err := by simp [fetch, hp, hd]
  simp [step, hf]

/-! ### What an instruction may write (R10) -/

/-- R10's written-by column, element by element: an effect leaves alone every element whose row does not name the
instruction. -/
theorem BlockEffect.writes_only_own_elements {i : Instr} {b b' : Block} (h : BlockEffect i b b') :
    (b'.regs ≠ b.regs → (∃ f v, i = .setf f v) ∨ ∃ a n l, i = .lpay a n l) ∧
    (b'.zeroCode ≠ b.zeroCode ∨ b'.zeroValid ≠ b.zeroValid → ∃ raw, i = .rzero raw) ∧
    (b'.spanCode ≠ b.spanCode ∨ b'.spanValid ≠ b.spanValid ∨ b'.calMassKg ≠ b.calMassKg ∨
      b'.calUnit ≠ b.calUnit → ∃ raw m u, i = .rspan raw m u) ∧
    (b'.tareKg ≠ b.tareKg → ∃ raw, i = .ctare raw) ∧
    (b'.accSum ≠ b.accSum ∨ b'.accN ≠ b.accN → i = .aclr ∨ ∃ smp, i = .aadd smp) := by
  cases i with
  | setf | lpay => obtain ⟨r, rfl⟩ := h; simp
  | aclr | rzero => subst h; simp
  | aadd => obtain ⟨-, rfl⟩ := h; simp
  | rspan => obtain ⟨q, rfl⟩ := h; simp
  | ctare => obtain ⟨-, q, rfl⟩ := h; simp
  | cmdReset | cmdShutdown | cmdStart | cmdReadData | cmdReadReg | cmdWriteReg | encf | decf | getf | bcmd | dsmp
  | dsmpb | epay | amean | tmass | tvolt => subst h; simp

/-- Settles O53: an instruction that ends in a next state left the block alone or had the effect of its row. -/
theorem elementsWrittenOnlyByTheirOperations : Obligations.ElementsWrittenOnlyByTheirOperations := by
  intro i s t h
  obtain ⟨hpend, hsame | ⟨-, heff⟩⟩ := exec_next_cases h
  · simp [hpend, hsame]
  · exact ⟨hpend, heff.writes_only_own_elements⟩

/-! ### The pure operations (R10) -/

/-- An answer computed without the state is one response, or one refusal, for all states. -/
theorem answer_uniform (a : Answer Result) :
    (∃ r : Response, ∀ s : State, answer a s = .next { s with response := some r }) ∨
    (∃ q : Refusal, ∀ s : State, answer a s = .refused q) := by
  cases a with
  | ok r => exact .inl ⟨.ok r, fun _ => rfl⟩
  | raise k => exact .inl ⟨.err k, fun _ => rfl⟩
  | noMeaning q => exact .inr ⟨q, fun _ => rfl⟩

/-- Settles O54: each pure operation answers what it computes from its operands alone. -/
theorem pureOperationsIgnoreState : Obligations.PureOperationsIgnoreState := by
  intro i hi
  cases i with
  | encf | bcmd | dsmp | dsmpb | tvolt => exact answer_uniform _
  | decf => exact .inl ⟨_, fun _ => rfl⟩
  | cmdReset | cmdShutdown | cmdStart | cmdReadData | cmdReadReg | cmdWriteReg | setf | getf | epay | lpay | aclr
  | aadd | amean | rzero | rspan | ctare | tmass => simp [isPureOp] at hi

/-! ### The invariant (R18, R22) -/

/-- Every effect keeps R18's bounds: an added sample is a 24-bit value, and every other effect leaves the sum and the
count alone or clears both. -/
theorem BlockEffect.keeps_accBounded {i : Instr} {b b' : Block} (h : BlockEffect i b b') (hb : b.AccBounded) :
    b'.AccBounded := by
  cases i with
  | aclr => subst h; simp [Block.AccBounded]
  | aadd =>
    obtain ⟨⟨hlo, hhi⟩, rfl⟩ := h
    simp only [Block.AccBounded, Block.accumulate_accSum, Block.accumulate_accN] at hb ⊢
    omega
  | setf | lpay | rspan => obtain ⟨_, rfl⟩ := h; exact hb
  | ctare => obtain ⟨-, _, rfl⟩ := h; exact hb
  | cmdReset | cmdShutdown | cmdStart | cmdReadData | cmdReadReg | cmdWriteReg | encf | decf | getf | bcmd | dsmp
  | dsmpb | epay | amean | tmass | tvolt | rzero => subst h; exact hb

/-- Every effect keeps the origin of the tare: CTARE passed the completeness check, a recording only sets a flag, and
every other effect leaves the tare and the flags alone. -/
theorem BlockEffect.keeps_tareFromCalibration {i : Instr} {b b' : Block} (h : BlockEffect i b b')
    (hb : b.TareFromCalibration) : b'.TareFromCalibration := by
  cases i with
  | ctare => obtain ⟨hflags, _, rfl⟩ := h; exact .inr hflags
  | rzero => subst h; exact hb.imp_right fun ⟨_, hs⟩ => ⟨rfl, hs⟩
  | rspan => obtain ⟨_, rfl⟩ := h; exact hb.imp_right fun ⟨hz, _⟩ => ⟨hz, rfl⟩
  | setf | lpay => obtain ⟨_, rfl⟩ := h; exact hb
  | aadd => obtain ⟨-, rfl⟩ := h; exact hb
  | cmdReset | cmdShutdown | cmdStart | cmdReadData | cmdReadReg | cmdWriteReg | encf | decf | getf | bcmd | dsmp
  | dsmpb | epay | amean | tmass | tvolt | aclr => subst h; exact hb

/-- An instruction that ends in a next state keeps the invariant. -/
theorem exec_keeps_inv {i : Instr} {s t : State} (h : exec i s = .next t) (hs : s.Inv) : t.Inv := by
  obtain ⟨hacc, htare⟩ := hs
  obtain ⟨-, hsame | ⟨-, heff⟩⟩ := exec_next_cases h
  · simp only [State.Inv, hsame]
    exact ⟨hacc, htare⟩
  · exact ⟨heff.keeps_accBounded hacc, heff.keeps_tareFromCalibration htare⟩

/-- Settles O59: an empty accumulator and no tare. -/
theorem resetSatisfiesInvariant : Obligations.ResetSatisfiesInvariant :=
  fun _ => ⟨(by decide : Block.reset.AccBounded), .inl rfl⟩

/-- Settles O58: a step is idle, or the reset event, or an instruction. -/
theorem stepKeepsInvariant : Obligations.StepKeepsInvariant := by
  intro s t hs h
  rcases step_next_cases h with ⟨-, rfl⟩ | ⟨rest, -, rfl⟩ | ⟨e, rest, i, -, -, he⟩
  · exact hs
  · exact resetSatisfiesInvariant rest
  · exact exec_keeps_inv he hs

/-! ### The flags (R17) -/

/-- The zero flag stands after an instruction exactly when it stood before or RZERO ran. -/
theorem exec_zeroValid_iff {i : Instr} {s t : State} (h : exec i s = .next t) :
    t.block.zeroValid = true ↔ s.block.zeroValid = true ∨ ∃ raw, i = .rzero raw := by
  by_cases hi : ∃ raw, i = .rzero raw
  · obtain ⟨raw, rfl⟩ := hi
    cases h
    simp
  · obtain ⟨-, -, hzero, -⟩ := elementsWrittenOnlyByTheirOperations i s t h
    have hsame : t.block.zeroValid = s.block.zeroValid := by_contra fun hne => hi (hzero (.inr hne))
    simp [hi, hsame]

/-- The span flag stands after an instruction exactly when it stood before or RSPAN ran. -/
theorem exec_spanValid_iff {i : Instr} {s t : State} (h : exec i s = .next t) :
    t.block.spanValid = true ↔ s.block.spanValid = true ∨ ∃ raw m u, i = .rspan raw m u := by
  by_cases hi : ∃ raw m u, i = .rspan raw m u
  · obtain ⟨raw, m, u, rfl⟩ := hi
    cases h
    simp
  · obtain ⟨-, -, -, hspan, -⟩ := elementsWrittenOnlyByTheirOperations i s t h
    have hsame : t.block.spanValid = s.block.spanValid := by_contra fun hne => hi (hspan (.inr (.inl hne)))
    simp [hi, hsame]

/-- Settles O56: an idle step keeps both flags, the reset event clears them, and an instruction only raises the flag
it records. -/
theorem flagsSetByRecordingClearedByReset : Obligations.FlagsSetByRecordingClearedByReset := by
  intro s t h
  rcases step_next_cases h with ⟨hp, rfl⟩ | ⟨rest, hp, rfl⟩ | ⟨e, rest, i, hp, hd, he⟩
  · simp +contextual [hp]
  · simp [hp, resetBlock, Block.reset]
  · have hz := exec_zeroValid_iff he
    have hs := exec_spanValid_iff he
    rw [State.withPending_block] at hz hs
    refine ⟨fun h1 h0 => ?_, fun h1 h0 => ?_, fun h0 h1 => ?_, fun h0 h1 => ?_,
      fun e' rest' raw hp' hd' => ?_, fun e' rest' raw m u hp' hd' => ?_⟩
    · exact absurd (hz.mpr (.inl h1)) (by simp [h0])
    · exact absurd (hs.mpr (.inl h1)) (by simp [h0])
    · obtain ⟨raw, rfl⟩ := (hz.mp h1).resolve_left (by simp [h0])
      exact ⟨e, rest, raw, hp, hd⟩
    · obtain ⟨raw, m, u, rfl⟩ := (hs.mp h1).resolve_left (by simp [h0])
      exact ⟨e, rest, raw, m, u, hp, hd⟩
    · cases hp.symm.trans hp'
      cases hd.symm.trans hd'
      exact hz.mpr (.inr ⟨raw, rfl⟩)
    · cases hp.symm.trans hp'
      cases hd.symm.trans hd'
      exact hs.mpr (.inr ⟨raw, m, u, rfl⟩)

/-! ### What is readable (R17) -/

/-- Where the calibration can be used, nothing of the block is unreadable; elsewhere both conversions end at the
completeness check (R129). -/
theorem Block.SameReadable.eq_or_incomplete {a b : Block} (h : a.SameReadable b) :
    a = b ∨ (a.conversionGuard = .error .calibrationIncomplete ∧
      b.conversionGuard = .error .calibrationIncomplete) := by
  obtain ⟨hregs, hzv, hsv, htare, hsum, hn, hzero, hspan⟩ := h
  by_cases hc : a.zeroValid = true ∧ a.spanValid = true
  · have hzc := hzero hc.1
    obtain ⟨hsc, hmass, hunit⟩ := hspan hc.2
    left
    cases a
    cases b
    simp_all only
  · have ha : a.calibrationComplete = false := by simpa [Block.calibrationComplete] using hc
    have hb : b.calibrationComplete = false := by rw [← ha, Block.calibrationComplete, ← hzv, ← hsv]; rfl
    right
    simp [Block.conversionGuard, ha, hb]

theorem Block.SameReadable.tareOf_eq {a b : Block} (h : a.SameReadable b) (rnd : Num → Num) (raw : Code) :
    a.tareOf rnd raw = b.tareOf rnd raw := by
  rcases h.eq_or_incomplete with rfl | ⟨ha, hb⟩
  · rfl
  · simp [Block.tareOf, ha, hb]

theorem Block.SameReadable.toMass_eq {a b : Block} (h : a.SameReadable b) (rnd : Num → Num) (raw : Code) :
    a.toMass rnd raw = b.toMass rnd raw := by
  rcases h.eq_or_incomplete with rfl | ⟨ha, hb⟩
  · rfl
  · simp [Block.toMass, ha, hb]

/-! Writing the same to the readable part of two blocks keeps it the same. -/

theorem Block.SameReadable.withRegs {a b : Block} (h : a.SameReadable b) (r : Regs) :
    (a.withRegs r).SameReadable (b.withRegs r) := ⟨rfl, h.2⟩

theorem Block.SameReadable.clearAcc {a b : Block} (h : a.SameReadable b) : a.clearAcc.SameReadable b.clearAcc := by
  obtain ⟨hregs, hzv, hsv, htare, -, -, hcodes⟩ := h
  exact ⟨hregs, hzv, hsv, htare, rfl, rfl, hcodes⟩

theorem Block.SameReadable.accumulate {a b : Block} (h : a.SameReadable b) (smp : Int) :
    (a.accumulate smp).SameReadable (b.accumulate smp) := by
  obtain ⟨hregs, hzv, hsv, htare, hsum, hn, hcodes⟩ := h
  exact ⟨hregs, hzv, hsv, htare, congrArg (· + smp) hsum, congrArg (· + 1) hn, hcodes⟩

theorem Block.SameReadable.recordZero {a b : Block} (h : a.SameReadable b) (raw : Code) :
    (a.recordZero raw).SameReadable (b.recordZero raw) := by
  obtain ⟨hregs, -, hsv, htare, hsum, hn, -, hspan⟩ := h
  exact ⟨hregs, rfl, hsv, htare, hsum, hn, fun _ => rfl, hspan⟩

theorem Block.SameReadable.recordSpan {a b : Block} (h : a.SameReadable b) (raw : Code) (q : Num) (u : MassUnit) :
    (a.recordSpan raw q u).SameReadable (b.recordSpan raw q u) := by
  obtain ⟨hregs, hzv, -, htare, hsum, hn, hzero, -⟩ := h
  exact ⟨hregs, hzv, rfl, htare, hsum, hn, hzero, fun _ => ⟨rfl, rfl, rfl⟩⟩

theorem Block.SameReadable.withTare {a b : Block} (h : a.SameReadable b) (q : Num) :
    (a.withTare q).SameReadable (b.withTare q) := by
  obtain ⟨hregs, hzv, hsv, -, hacc⟩ := h
  exact ⟨hregs, hzv, hsv, rfl, hacc⟩

/-! So it is with what crosses the boundary, and with the ways a request is answered. -/

theorem State.SameReadable.withPending {s t : State} (h : s.SameReadable t) (l : List HostInput) :
    (s.withPending l).SameReadable (t.withPending l) := ⟨h.1, rfl, h.2.2⟩

theorem State.SameReadable.withBlock {s t : State} (h : s.SameReadable t) {a b : Block} (hab : a.SameReadable b) :
    (s.withBlock a).SameReadable (t.withBlock b) := ⟨hab, h.2⟩

theorem State.SameReadable.sameOutcome_respond {s t : State} (h : s.SameReadable t) (r : Result) :
    SameOutcome (respond r s) (respond r t) := by
  obtain ⟨hblock, hpend, -, hwire⟩ := h
  exact ⟨hblock, hpend, rfl, hwire⟩

theorem State.SameReadable.sameOutcome_raiseError {s t : State} (h : s.SameReadable t) (k : ErrorKind) :
    SameOutcome (raiseError k s) (raiseError k t) := by
  obtain ⟨hblock, hpend, -, hwire⟩ := h
  exact ⟨hblock, hpend, rfl, hwire⟩

theorem State.SameReadable.sameOutcome_transmit {s t : State} (h : s.SameReadable t) (c : Byte) (f : Follows) :
    SameOutcome (transmit c f s) (transmit c f t) := by
  obtain ⟨hblock, hpend, hresp, -⟩ := h
  exact ⟨hblock, hpend, hresp, rfl⟩

theorem State.SameReadable.sameOutcome_answer {s t : State} (h : s.SameReadable t) (a : Answer Result) :
    SameOutcome (answer a s) (answer a t) := by
  cases a with
  | ok r => exact h.sameOutcome_respond r
  | raise k => exact h.sameOutcome_raiseError k
  | noMeaning q => rfl

theorem State.SameReadable.sameOutcome_transmitAddressed {s t : State} (h : s.SameReadable t) (opc : OpcodeId)
    (start count : Nat) (f : Follows) :
    SameOutcome (transmitAddressed opc start count f s) (transmitAddressed opc start count f t) := by
  unfold transmitAddressed
  cases buildCommand Config.opcodeByte opc start count with
  | ok c => exact h.sameOutcome_transmit c f
  | error k => exact h.sameOutcome_raiseError k

/-- No instruction lets out what an element holds while its flag is false: it checks and computes with readable
elements only. -/
theorem State.SameReadable.sameOutcome_exec {s t : State} (h : s.SameReadable t) (i : Instr) :
    SameOutcome (exec i s) (exec i t) := by
  have hb : s.block.SameReadable t.block := h.1
  have hregs : s.block.regs = t.block.regs := hb.1
  cases i with
  | cmdReset | cmdShutdown | cmdStart | cmdReadData => exact h.sameOutcome_transmit _ _
  | cmdReadReg => exact h.sameOutcome_transmitAddressed _ _ _ _
  | cmdWriteReg start count =>
    simp only [exec, execCmdWriteReg, hregs]
    cases writeFrame t.block.regs start count with
    | ok f => exact h.sameOutcome_transmit _ _
    | error k => exact h.sameOutcome_raiseError k
  | encf | bcmd | dsmp | dsmpb | tvolt => exact h.sameOutcome_answer _
  | decf => exact h.sameOutcome_respond _
  | setf f v =>
    simp only [exec, execSetf, hregs]
    cases encodeField (Config.fieldTable f) (t.block.regs.get (Config.fieldTable f).reg) v with
    | ok new => exact (h.withBlock (hb.withRegs _)).sameOutcome_respond _
    | error k => exact h.sameOutcome_raiseError k
  | getf f =>
    simp only [exec, execGetf, hregs]
    exact h.sameOutcome_respond _
  | epay start count =>
    simp only [exec, execEpay, hregs]
    cases checkBurst start count with
    | ok =>
      cases memRead t.block.regs start.toNat count.toNat with
      | some bytes => exact h.sameOutcome_respond _
      | none => rfl
    | error k => exact h.sameOutcome_raiseError k
  | lpay start count bytes =>
    simp only [exec, execLpay, hregs]
    cases checkBurst start count with
    | ok =>
      dsimp only
      split
      · exact h.sameOutcome_raiseError _
      · split
        · rfl
        · cases memWrite t.block.regs start.toNat bytes with
          | some r => exact (h.withBlock (hb.withRegs r)).sameOutcome_respond _
          | none => rfl
    | error k => exact h.sameOutcome_raiseError k
  | aclr => exact (h.withBlock hb.clearAcc).sameOutcome_respond _
  | aadd smp =>
    simp only [exec, execAadd]
    split
    · exact h.sameOutcome_raiseError _
    · exact (h.withBlock (hb.accumulate smp)).sameOutcome_respond _
  | amean =>
    obtain ⟨-, -, -, -, hsum, hn, -⟩ := hb
    simp only [exec, execAmean, Block.mean, hsum, hn]
    exact h.sameOutcome_answer _
  | rzero raw => exact (h.withBlock (hb.recordZero raw)).sameOutcome_respond _
  | rspan raw m u => exact (h.withBlock (hb.recordSpan raw _ u)).sameOutcome_respond _
  | ctare raw =>
    simp only [exec, execCtare, hb.tareOf_eq]
    cases t.block.tareOf Config.rnd raw with
    | ok q => exact (h.withBlock (hb.withTare q)).sameOutcome_respond _
    | error k => exact h.sameOutcome_raiseError k
  | tmass raw =>
    simp only [exec, execTmass, hb.toMass_eq]
    exact h.sameOutcome_answer _

/-- Settles O57: the two states take the same thing off the host's list and perform it alike. -/
theorem unreadableElementsDoNotMatter : Obligations.UnreadableElementsDoNotMatter := by
  intro s t h
  have hpend : s.pending = t.pending := h.2.1
  match hp : t.pending with
  | [] =>
    rw [step_of_pending_nil (hpend.trans hp), step_of_pending_nil hp]
    exact h
  | .resetEvent :: rest =>
    rw [step_of_resetEvent (hpend.trans hp), step_of_resetEvent hp]
    have hreset : Block.reset.SameReadable Block.reset := by decide
    exact (h.withPending rest).withBlock hreset
  | .present e :: rest =>
    cases hd : decode e with
    | ok i =>
      rw [step_of_decode_ok (hpend.trans hp) hd, step_of_decode_ok hp hd]
      exact (h.withPending rest).sameOutcome_exec i
    | error err => rw [step_of_decode_error (hpend.trans hp) hd, step_of_decode_error hp hd]

/-! ### Equal codes (R16, R130) -/

/-- R130: with both points recorded and one code for both, each conversion ends at the division guard. -/
theorem exec_conversion_of_equal_codes {s : State} (hz : s.block.zeroValid = true) (hs : s.block.spanValid = true)
    (hc : s.block.spanCode = s.block.zeroCode) (raw : Code) :
    exec (.tmass raw) s = .next { s with response := some (.err .divisionByZero) } ∧
      exec (.ctare raw) s = .next { s with response := some (.err .divisionByZero) } := by
  have hguard : s.block.conversionGuard = .error .divisionByZero := by
    simp [Block.conversionGuard, Block.calibrationComplete, hz, hs, hc]
  simp only [exec, execTmass, execCtare, Block.toMass, Block.tareOf, hguard]
  exact ⟨rfl, rfl⟩

/-- Settles O47: a recording accepts every code, and the conversions meet the equal codes. -/
theorem equalCodesFailAtConversion : Obligations.EqualCodesFailAtConversion := by
  intro c m raw u s
  refine ⟨_, _, (runUntilErr_cons_ok _ rfl rfl).trans (runUntilErr_cons_ok _ rfl rfl), rfl,
    (runUntilErr_cons_ok _ rfl rfl).trans (runUntilErr_cons_ok _ rfl rfl), rfl, and_assoc.mp ⟨?_, ?_⟩⟩
  · exact exec_conversion_of_equal_codes rfl rfl rfl raw
  · exact exec_conversion_of_equal_codes rfl rfl rfl raw

/-! ### Values after reset and the field table (R22, R12) -/

/-- Settles O8: R22's values, register by register and element by element. -/
theorem resetStateValues : Obligations.ResetStateValues := by
  refine ⟨fun a => ?_, rfl, rfl, rfl, rfl, rfl, rfl⟩
  match a with
  | 0 | 1 | 2 | 3 => exact ⟨rfl, rfl⟩

/-- The field of the default table that bit `i` of register `a` belongs to (R13). -/
def fieldAt (a : Fin 4) (i : Fin 8) : FieldId :=
  match a, i with
  | 0, 0 => .pgaBypass
  | 0, 1 | 0, 2 | 0, 3 => .gain
  | 0, _ => .mux
  | 1, 0 => .bcs
  | 1, 1 => .ts
  | 1, 2 => .cm
  | 1, 3 | 1, 4 => .mode
  | 1, _ => .dr
  | 2, 0 | 2, 1 | 2, 2 => .idac
  | 2, 3 => .psw
  | 2, 4 | 2, 5 => .fir
  | 2, _ => .vref
  | 3, 0 => .rsvd
  | 3, 1 => .drdym
  | 3, 2 | 3, 3 | 3, 4 => .i2mux
  | 3, _ => .i1mux

theorem fieldTable_holds_iff (f : FieldId) (a : Fin 4) (i : Fin 8) :
    (Config.fieldTable f).Holds a i ↔ f = fieldAt a i := by
  cases f <;> revert a i <;> decide

theorem fieldTable_fits (f : FieldId) : (Config.fieldTable f).Fits := by
  cases f <;> decide

/-- Settles O9: each bit of each register has the one owner `fieldAt` names. -/
theorem defaultFieldTablePartitions : Obligations.DefaultFieldTablePartitions :=
  ⟨⟨fieldTable_fits, fun a i => ⟨fieldAt a i, (fieldTable_holds_iff _ a i).mpr rfl,
    fun g => (fieldTable_holds_iff g a i).mp⟩⟩, rfl, rfl, rfl⟩

end Sys2Proof.Machine
end

section
/-! PROOFS of the family `20_memory.md`: no access leaves the register space, and a read of the block can be repeated. -/

namespace Sys2Proof.Machine

/-! ### Every access stays inside the register space (R33, R34, R37) -/

/-- A wire command goes out or ends in an error, and a host operation responds, ends in an error or is refused: the
burst checks stand before every access to the registers. -/
theorem exec_ne_fault (i : Instr) (s : State) (r : Fault) : exec i s ≠ .fault r := by
  cases hi : i.isWire with
  | true => rcases exec_wire_cases i s hi with ⟨_, he⟩ | he <;> simp [he]
  | false => rcases exec_host_cases i s hi with ⟨_, -, he⟩ | ⟨-, he | he⟩ | ⟨_, _, he, -⟩ <;> simp [he]

theorem step_ne_fault (s : State) (r : Fault) : step s ≠ .fault r := by
  rcases fetch_cases s with ⟨hp, -⟩ | ⟨rest, hp, -⟩ | ⟨e, rest, i, hp, hd, -⟩ | ⟨e, rest, err, hp, hd, -⟩
  · simp [step_of_pending_nil hp]
  · simp [step_of_resetEvent hp]
  · rw [step_of_decode_ok hp hd]
    exact exec_ne_fault i _ r
  · simp [step_of_decode_error hp hd]

/-- Settles O51: no instruction faults, and neither do the steps that run none. -/
theorem nothingFaults : Obligations.NothingFaults := ⟨exec_ne_fault, step_ne_fault⟩

/-! ### Reads of block state (R36) -/

/-- The instruction's answer is a function of the block alone, and answering is all it does. -/
def OnlyReadsBlock (i : Instr) : Prop :=
  ∃ read : Block → Answer Result, ∀ s : State, exec i s = answer (read s.block) s

/-- An answer changes only the response, so giving it again changes nothing. -/
theorem answer_next_repeats {a : Answer Result} {s t : State} (h : answer a s = .next t) :
    t.block = s.block ∧ answer a t = .next t := by
  rcases answer_cases a s with ⟨r, rfl, he⟩ | ⟨k, rfl, he⟩ | ⟨q, -, he⟩ <;> rw [he] at h <;> cases h
  · exact ⟨rfl, rfl⟩
  · exact ⟨rfl, rfl⟩

theorem OnlyReadsBlock.repeats {i : Instr} (hi : OnlyReadsBlock i) {s t : State} (h : exec i s = .next t) :
    t.block = s.block ∧ exec i t = .next t := by
  obtain ⟨read, hread⟩ := hi
  rw [hread] at h ⊢
  obtain ⟨hblock, hagain⟩ := answer_next_repeats h
  exact ⟨hblock, by rw [hblock, hagain]⟩

/-- The registers a burst names, or the error of its address check (R34, R104). Past the check every register exists,
so the empty list stands for no case that occurs (`memRead_inside`). -/
def Regs.burst (r : Regs) (start count : Int) : Except ErrorKind (List Byte) :=
  match checkBurst start count with
  | .error k => .error k
  | .ok () => .ok ((memRead r start.toNat count.toNat).getD [])

/-- EPAY only answers: a burst that passes the check reads inside the register space. -/
theorem execEpay_eq_answer (start count : Int) (s : State) :
    execEpay start count s = answer (Answer.ofExcept .bytes (s.block.regs.burst start count)) s := by
  unfold execEpay Regs.burst
  rw [checkBurst_eq]
  by_cases hc : 0 ≤ start ∧ 1 ≤ count ∧ start + count ≤ 4
  · obtain ⟨l, hl, -, -⟩ := memRead_inside s.block.regs count.toNat start.toNat (by omega)
    rw [if_pos hc, hl]
    rfl
  · rw [if_neg hc]
    rfl

theorem onlyReadsBlock_getf (f : FieldId) : OnlyReadsBlock (.getf f) :=
  ⟨fun b => .ok (.int (decodeField (Config.fieldTable f) (b.regs.get (Config.fieldTable f).reg))), fun _ => rfl⟩

theorem onlyReadsBlock_epay (start count : Int) : OnlyReadsBlock (.epay start count) :=
  ⟨fun b => Answer.ofExcept .bytes (b.regs.burst start count), execEpay_eq_answer start count⟩

theorem onlyReadsBlock_amean : OnlyReadsBlock .amean :=
  ⟨fun b => Answer.ofExcept .num (b.mean Config.rnd), fun _ => rfl⟩

theorem onlyReadsBlock_tmass (raw : Code) : OnlyReadsBlock (.tmass raw) :=
  ⟨fun b => Answer.ofExcept .num (b.toMass Config.rnd raw), fun _ => rfl⟩

/-- Settles O55: the four operations only read the block, which their answer leaves as it was. -/
theorem readsAreIdempotent : Obligations.ReadsAreIdempotent := by
  rintro i s t (⟨f, rfl⟩ | ⟨start, count, rfl⟩ | rfl | ⟨raw, rfl⟩) h
  · exact (onlyReadsBlock_getf f).repeats h
  · exact (onlyReadsBlock_epay start count).repeats h
  · exact onlyReadsBlock_amean.repeats h
  · exact (onlyReadsBlock_tmass raw).repeats h

end Sys2Proof.Machine
end

section
/-! PROOFS of the family `30_encoding.md`: decoder and encoder are inverse to each other, a command byte is classified
by its opcode, and what spells no operation is refused; then what follows a command byte, and AVG. -/

namespace Sys2Proof.Machine

/-! ### The classification of a command byte (R47, R53, R58) -/

/-- R58: a register-access opcode spells a command byte by its high nibble, any other opcode by all eight bits. -/
abbrev Spells (byteOf : OpcodeId → Byte) (o : OpcodeId) (c : Byte) : Prop :=
  if o.registerAccess then c &&& 0xF0 = byteOf o else c = byteOf o

/-- The wire command of an opcode; a register access takes its operands from the byte (R53). -/
def wireCommand (c : Byte) : OpcodeId → Instr
  | .reset => .cmdReset
  | .shutdown => .cmdShutdown
  | .start => .cmdStart
  | .readData => .cmdReadData
  | .readReg => .cmdReadReg (startOfCommand c) (countOfCommand c)
  | .writeReg => .cmdWriteReg (startOfCommand c) (countOfCommand c)

theorem exists_opcodeId_iff {P : OpcodeId → Prop} :
    (∃ o, P o) ↔ P .reset ∨ P .shutdown ∨ P .start ∨ P .readData ∨ P .readReg ∨ P .writeReg := by
  constructor
  · rintro ⟨o, h⟩
    cases o <;> simp [h]
  · rintro (h | h | h | h | h | h) <;> exact ⟨_, h⟩

/-- The default bytes meet R4's constraints. -/
theorem opcodeByte_admissible : OpcodeBytesAdmissible Config.opcodeByte := by
  refine ⟨fun o => ?_, fun o p => ?_, fun o p => ?_⟩
  · cases o <;> decide
  · cases o <;> cases p <;> decide
  · cases o <;> cases p <;> decide

/-- What the classifier can answer: the command of an opcode that spells the byte, or, when none does, an error. -/
theorem decodeCommandWith_cases (byteOf : OpcodeId → Byte) (c : Byte) :
    (∃ o, Spells byteOf o c ∧ decodeCommandWith byteOf c = .ok (wireCommand c o)) ∨
    ((∀ o, ¬ Spells byteOf o c) ∧ decodeCommandWith byteOf c = .error (.unassignedCommand c)) := by
  unfold decodeCommandWith
  split
  case isTrue h => exact .inl ⟨.reset, h, rfl⟩
  split
  case isTrue h => exact .inl ⟨.shutdown, h, rfl⟩
  split
  case isTrue h => exact .inl ⟨.start, h, rfl⟩
  split
  case isTrue h => exact .inl ⟨.readData, h, rfl⟩
  split
  case isTrue h => exact .inl ⟨.readReg, h, rfl⟩
  split
  case isTrue h => exact .inl ⟨.writeReg, h, rfl⟩
  exact .inr ⟨fun o => by cases o <;> assumption, rfl⟩

section
variable {byteOf : OpcodeId → Byte} (hadm : OpcodeBytesAdmissible byteOf) {c : Byte}
include hadm

/-- R4's constraints leave at most one opcode to a byte: one that a register access spells by its high nibble has that
nibble in common with no other opcode byte. -/
theorem Spells.unique {o p : OpcodeId} (ho : Spells byteOf o c) (hp : Spells byteOf p c) : o = p := by
  obtain ⟨-, hinj, hnibble⟩ := hadm
  have hmask : c &&& 0xF0 &&& 0xF0 = c &&& 0xF0 := by rw [BitVec.and_assoc, BitVec.and_self]
  cases hro : o.registerAccess <;> cases hrp : p.registerAccess <;> simp only [Spells, hro, hrp] at ho hp
  · exact hinj o p (ho.symm.trans hp)
  · exact hnibble p o hrp (by rw [← ho, ← hp, hmask])
  · exact (hnibble o p hro (by rw [← ho, ← hp, hmask])).symm
  · exact hinj o p (ho.symm.trans hp)

theorem decodeCommandWith_eq_ok_iff {i : Instr} :
    decodeCommandWith byteOf c = .ok i ↔ ∃ o, Spells byteOf o c ∧ i = wireCommand c o := by
  rcases decodeCommandWith_cases byteOf c with ⟨o, ho, hd⟩ | ⟨hno, hd⟩
  · rw [hd, Except.ok.injEq]
    refine ⟨fun h => ⟨o, ho, h.symm⟩, ?_⟩
    rintro ⟨p, hp, rfl⟩
    rw [Spells.unique hadm ho hp]
  · simp [hd, hno]

theorem decodeCommandWith_of_spells {o : OpcodeId} (ho : Spells byteOf o c) :
    decodeCommandWith byteOf c = .ok (wireCommand c o) :=
  (decodeCommandWith_eq_ok_iff hadm).mpr ⟨o, ho, rfl⟩

end

theorem decodeCommandWith_eq_error_iff {byteOf : OpcodeId → Byte} {c : Byte} :
    decodeCommandWith byteOf c = .error (.unassignedCommand c) ↔ ∀ o, ¬ Spells byteOf o c := by
  rcases decodeCommandWith_cases byteOf c with ⟨o, ho, hd⟩ | ⟨hno, hd⟩
  · simpa [hd] using ⟨o, ho⟩
  · simp [hd, hno]

/-- On this hardware a command byte decodes to the command of the opcode that spells it. -/
theorem decode_command_eq_ok_iff {c : Byte} {i : Instr} :
    decode (.command c) = .ok i ↔ ∃ o, Spells Config.opcodeByte o c ∧ i = wireCommand c o :=
  decodeCommandWith_eq_ok_iff opcodeByte_admissible

theorem startOfCommand_le (c : Byte) : startOfCommand c ≤ 3 := by
  rw [startOfCommand_eq]
  omega

theorem countOfCommand_bounds (c : Byte) : 1 ≤ countOfCommand c ∧ countOfCommand c ≤ 4 := by
  rw [countOfCommand_eq]
  omega

theorem wireCommand_wf (c : Byte) (o : OpcodeId) : (wireCommand c o).wf = true := by
  cases o <;> simp [wireCommand, Instr.wf, startFits, countFits, startOfCommand_le, countOfCommand_bounds]

theorem highNibble_toNat (c : Byte) : (c &&& 0xF0).toNat = c.toNat / 16 * 16 := by
  revert c
  decide +kernel

/-- A byte is its high nibble and the two operands it carries below it. -/
theorem commandByte_ext {b c : Byte} (hstart : startOfCommand b = startOfCommand c)
    (hcount : countOfCommand b = countOfCommand c) (hnibble : b &&& 0xF0 = c &&& 0xF0) : b = c := by
  have hn := congrArg BitVec.toNat hnibble
  rw [highNibble_toNat, highNibble_toNat] at hn
  rw [startOfCommand_eq, startOfCommand_eq] at hstart
  rw [countOfCommand_eq, countOfCommand_eq] at hcount
  exact BitVec.eq_of_toNat_eq (by omega)

/-- The low nibble of a register-access byte is free (R4). -/
theorem opcodeByte_highNibble {o : OpcodeId} (ho : o.registerAccess = true) :
    Config.opcodeByte o &&& 0xF0 = Config.opcodeByte o := by
  cases o with
  | readReg | writeReg => decide
  | reset | shutdown | start | readData => cases ho

/-- A byte that a register-access opcode spells is that opcode's byte over the byte's own operands (R47). -/
theorem addressedByte_of_spells {o : OpcodeId} {c : Byte} (ho : o.registerAccess = true)
    (h : Spells Config.opcodeByte o c) :
    addressedByte (Config.opcodeByte o) (startOfCommand c) (countOfCommand c) = c := by
  rw [Spells, if_pos ho] at h
  obtain ⟨hlow, hhigh⟩ := countOfCommand_bounds c
  obtain ⟨hs, hn, hnibble⟩ := addressedByte_fields (Config.opcodeByte o) _ _ (startOfCommand_le c) hlow hhigh
  exact commandByte_ext hs hn (by rw [hnibble, opcodeByte_highNibble ho, h])

/-! ### Decoding what the encoder writes -/

/-- A packed CMD-A byte decodes to the register access of its opcode, start address and count. -/
theorem decode_addressedByte {o : OpcodeId} (ho : o.registerAccess = true) {start count : Nat}
    (hwf : (startFits start && countFits count) = true) :
    ∃ c, addressedByte (Config.opcodeByte o) start count = c ∧ startOfCommand c = start ∧
      countOfCommand c = count ∧ decode (.command c) = .ok (wireCommand c o) := by
  simp only [startFits, countFits, Bool.and_eq_true, decide_eq_true_eq] at hwf
  obtain ⟨hstart, hlow, hhigh⟩ := hwf
  obtain ⟨hs, hn, hnibble⟩ := addressedByte_fields (Config.opcodeByte o) start count hstart hlow hhigh
  refine ⟨_, rfl, hs, hn, decodeCommandWith_of_spells opcodeByte_admissible ?_⟩
  rw [Spells, if_pos ho, hnibble, opcodeByte_highNibble ho]

/-- A decoder goes on with an operand it has read. -/
theorem ok_bind {ε α β : Type} (a : α) (k : α → Except ε β) : (Except.ok a >>= k) = k a := rfl

theorem decode_encode {i : Instr} (h : i.wf = true) : decode (encode i) = .ok i := by
  cases i with
  | cmdReset | cmdShutdown | cmdStart | cmdReadData => rfl
  | cmdReadReg start count =>
    obtain ⟨c, hc, rfl, rfl, hd⟩ := decode_addressedByte (o := .readReg) rfl h
    rw [encode, hc, hd, wireCommand]
  | cmdWriteReg start count =>
    obtain ⟨c, hc, rfl, rfl, hd⟩ := decode_addressedByte (o := .writeReg) rfl h
    rw [encode, hc, hd, wireCommand]
  | encf | decf => simp [encode, decode, decodeRequest, byteValue, ok_bind]
  | setf | getf | bcmd | rspan => simp [encode, decode, decodeRequest]
  | dsmp | lpay => simp [encode, decode, decodeRequest, byteValues, listOperand_map byteOperand_toNat]
  | dsmpb => simp [encode, decode, decodeRequest, bitValues, listOperand_map bitOperand_toNat]
  | epay | aclr | aadd | amean | rzero | ctare | tmass | tvolt => rfl

/-- Settles O1: every operand form reads back what the encoder writes. -/
theorem decodeOfEncodeIsInstruction : Obligations.DecodeOfEncodeIsInstruction := fun _ h => decode_encode h

/-! ### Encoding what the decoder reads -/

/-- An operand reader that succeeds read what the encoder writes for its value, and the decoder goes on with it. -/
theorem readOperand_bind {ω α β : Type} {read : ω → Except DecodeError α} {write : α → ω}
    (hread : ∀ {z a}, read z = .ok a → z = write a) {z : ω} {k : α → Except DecodeError β} {b : β}
    (h : (read z >>= k) = .ok b) : ∃ a, z = write a ∧ k a = .ok b := by
  cases hz : read z with
  | error e =>
    rw [hz] at h
    cases h
  | ok a =>
    rw [hz] at h
    exact ⟨a, hread hz, h⟩

theorem encode_wireCommand {c : Byte} {o : OpcodeId} (h : Spells Config.opcodeByte o c) :
    encode (wireCommand c o) = .command c := by
  cases o with
  | reset | shutdown | start | readData => exact congrArg Encoded.command h.symm
  | readReg | writeReg => exact congrArg Encoded.command (addressedByte_of_spells rfl h)

theorem listOperand_byteOperand_ok {zs : List Int} {l : List Byte} (h : listOperand byteOperand zs = .ok l) :
    zs = l.map fun b => (b.toNat : Int) :=
  listOperand_ok (fun _ _ => byteOperand_ok) h

theorem listOperand_bitOperand_ok {zs : List Int} {l : List Bool} (h : listOperand bitOperand zs = .ok l) :
    zs = l.map fun b => (b.toNat : Int) :=
  listOperand_ok (fun _ _ => bitOperand_ok) h

/-- R55, selector by selector: the operands that decode are those the encoder writes. -/
theorem wf_and_encode_of_decodeRequest {opsel : Byte} {operands : List Operand} {i : Instr}
    (h : decodeRequest opsel operands = .ok i) : i.wf = true ∧ encode i = .request opsel operands := by
  rw [← BitVec.setWidth_eq opsel, ← BitVec.ofNat_toNat]
  unfold decodeRequest at h
  generalize opsel.toNat = n at h ⊢
  split at h
  -- a selector above 0x10
  case h_18 => cases h
  -- EPAY, ACLR, AADD, AMEAN, RZERO, CTARE, TMASS, TVOLT: no operand that could fail to be read
  case h_8 | h_10 | h_11 | h_12 | h_13 | h_15 | h_16 | h_17 =>
    split at h <;> cases h
    exact ⟨rfl, rfl⟩
  all_goals
    split at h
    case h_2 => cases h
  -- ENCF and DECF, SETF and GETF, BCMD, DSMP, DSMPB, LPAY, RSPAN
  iterate 2
    · obtain ⟨reg, rfl, hf⟩ := readOperand_bind byteOperand_ok h
      obtain ⟨f, rfl, ⟨⟩⟩ := readOperand_bind fieldOperand_ok hf
      exact ⟨rfl, rfl⟩
  iterate 2
    · obtain ⟨f, rfl, ⟨⟩⟩ := readOperand_bind fieldOperand_ok h
      exact ⟨rfl, rfl⟩
  · obtain ⟨opc, rfl, ⟨⟩⟩ := readOperand_bind opcodeOperand_ok h
    exact ⟨rfl, rfl⟩
  · obtain ⟨bytes, rfl, ⟨⟩⟩ := readOperand_bind listOperand_byteOperand_ok h
    exact ⟨rfl, rfl⟩
  · obtain ⟨bits, rfl, ⟨⟩⟩ := readOperand_bind listOperand_bitOperand_ok h
    exact ⟨rfl, rfl⟩
  · obtain ⟨bytes, rfl, ⟨⟩⟩ := readOperand_bind listOperand_byteOperand_ok h
    exact ⟨rfl, rfl⟩
  · obtain ⟨u, rfl, ⟨⟩⟩ := readOperand_bind unitOperand_ok h
    exact ⟨rfl, rfl⟩

/-- Settles O2: a command byte is its opcode over its own operands, and an operand that was read is what the encoder
writes for its value. -/
theorem encodeOfDecodeIsWord : Obligations.EncodeOfDecodeIsWord := by
  intro e i h
  cases e with
  | command c =>
    obtain ⟨o, ho, rfl⟩ := decode_command_eq_ok_iff.mp h
    exact ⟨wireCommand_wf c o, encode_wireCommand ho⟩
  | request opsel operands => exact wf_and_encode_of_decodeRequest h

/-! ### Known words and the default map (R55 to R58) -/

/-- Settles O3, word by word. -/
theorem knownWordsDecode : Obligations.KnownWordsDecode := by
  unfold Obligations.KnownWordsDecode
  decide

/-- The default map by the byte's value: R58's four single bytes and two rows of sixteen. -/
theorem exists_spells_opcodeByte_iff (c : Byte) :
    (∃ o, Spells Config.opcodeByte o c) ↔
      c.toNat = 0x02 ∨ c.toNat = 0x06 ∨ c.toNat = 0x08 ∨ c.toNat = 0x10 ∨
        c.toNat / 16 = 2 ∨ c.toNat / 16 = 4 := by
  have hread : c &&& 0xF0 = 0x20 ↔ c.toNat / 16 * 16 = 0x20 := by rw [← BitVec.toNat_inj, highNibble_toNat]; rfl
  have hwrite : c &&& 0xF0 = 0x40 ↔ c.toNat / 16 * 16 = 0x40 := by rw [← BitVec.toNat_inj, highNibble_toNat]; rfl
  simp only [exists_opcodeId_iff, Spells, OpcodeId.registerAccess, Config.opcodeByte, hread, hwrite,
    Bool.false_eq_true, if_true, if_false]
  bv_omega

/-- Settles O4: each command is one opcode's, and R4's constraints leave at most one opcode to a byte. -/
theorem commandByteClassification : Obligations.CommandByteClassification := by
  refine ⟨fun byteOf hadm c => ?_, fun _ => rfl, fun n hn => ?_⟩
  · simp only [decodeCommandWith_eq_ok_iff hadm, decodeCommandWith_eq_error_iff, ← not_exists, exists_opcodeId_iff]
    simp [Spells, wireCommand, OpcodeId.registerAccess, startOfCommand_eq, countOfCommand_eq]
  · have hok : (∃ i, decode (.command (BitVec.ofNat 8 n)) = .ok i) ↔
        ∃ o, Spells Config.opcodeByte o (BitVec.ofNat 8 n) := by
      simp only [decode_command_eq_ok_iff]
      exact ⟨fun ⟨_, o, ho, _⟩ => ⟨o, ho⟩, fun ⟨o, ho⟩ => ⟨_, o, ho, rfl⟩⟩
    rw [hok, exists_spells_opcodeByte_iff, BitVec.toNat_ofNat, Nat.mod_eq_of_lt hn]
    omega

/-! ### What spells no operation (R59, U1) -/

/-- A number past the table's last entry is rejected, and a negative one with it (log entry 2). -/
theorem enumOperand_eq_error {α : Type} {table : Nat → Option α} (bad : Int → DecodeError) {size : Nat}
    (htable : ∀ k, table (k + size) = none) {z : Int} (hz : z < 0 ∨ (size : Int) ≤ z) :
    enumOperand table bad z = .error (bad z) := by
  cases z with
  | ofNat n =>
    obtain ⟨k, rfl⟩ := Nat.exists_eq_add_of_le' (show size ≤ n by simp at hz; omega)
    unfold enumOperand
    rw [show (Int.ofNat (k + size)).toNat = k + size from rfl, htable k]
  | negSucc n => rfl

theorem opcodeOperand_eq_error {z : Int} (hz : z < 0 ∨ 5 < z) : opcodeOperand z = .error (.unknownOpcode z) :=
  enumOperand_eq_error .unknownOpcode (size := 6) (fun _ => rfl) (by omega)

theorem fieldOperand_eq_error {z : Int} (hz : z < 0 ∨ 15 < z) : fieldOperand z = .error (.unknownField z) :=
  enumOperand_eq_error .unknownField (size := 16) (fun _ => rfl) (by omega)

theorem unitOperand_eq_error {z : Int} (hz : z < 0 ∨ 3 < z) : unitOperand z = .error (.unknownUnit z) :=
  enumOperand_eq_error .unknownUnit (size := 4) (fun _ => rfl) (by omega)

theorem decodeRequest_of_unassigned {opsel : Byte} (h : 0x10 < opsel.toNat) (operands : List Operand) :
    decodeRequest opsel operands = .error (.unassignedSelector opsel) := by
  obtain ⟨k, hk⟩ : ∃ k, opsel.toNat = k + 0x11 := Nat.exists_eq_add_of_le' h
  unfold decodeRequest
  rw [hk]
  rfl

/-- Settles O5: the selector, or the first operand out of its table, ends the decoding, and the step is refused. -/
theorem unassignedRequestsRefused : Obligations.UnassignedRequestsRefused := by
  refine ⟨fun opsel ops h => decodeRequest_of_unassigned h ops, fun z start count hz => ?_, fun reg z v hz => ?_,
    fun raw m z hz => ?_, fun s e rest err => step_of_decode_error⟩
  · simp [decode, decodeRequest, opcodeOperand_eq_error hz]
  · simp [decode, decodeRequest, ok_bind, fieldOperand_eq_error hz]
  · simp [decode, decodeRequest, unitOperand_eq_error hz]

/-! ### What follows a command byte (R50, R87 to R89) -/

/-- R87: a READ_REG sends the byte BCMD builds and expects as many bytes as it counts. -/
theorem exec_cmdReadReg (s : State) {start count : Nat} (hs : start ≤ 3) (hlow : 1 ≤ count) (hhigh : count ≤ 4) :
    exec (.cmdReadReg start count) s =
      .next (s.withWire ⟨addressedByte (Config.opcodeByte .readReg) start count, .registersFromChip count⟩) := by
  simp only [exec, execCmdReadReg, transmitAddressed, buildCommand_addressed _ (opc := .readReg) _ _ rfl]
  rw [if_pos (by omega)]
  rfl

/-- R88: a WRITE_REG of registers that exist sends the byte BCMD builds and a payload of as many bytes. -/
theorem exec_cmdWriteReg_inside (s : State) {start count : Nat} (hlow : 1 ≤ count) (hfit : start + count ≤ 4) :
    ∃ payload : List Byte, payload.length = count ∧ exec (.cmdWriteReg start count) s =
      .next (s.withWire ⟨addressedByte (Config.opcodeByte .writeReg) start count, .payloadToChip payload⟩) := by
  rcases writeFrame_cases s.block.regs start count with ⟨-, payload, hframe, hread⟩ | ⟨hout, -⟩
  · obtain ⟨l, hl, hlen, -⟩ := memRead_inside s.block.regs count start hfit
    obtain rfl : l = payload := Option.some.inj (hl.symm.trans hread)
    exact ⟨l, hlen, by simp only [exec, execCmdWriteReg, hframe, transmit_eq]⟩
  · exact absurd (by omega) hout

/-- R88 and R89: a WRITE_REG past register 3 ends in EPAY's error before a byte goes out (log entry 4). -/
theorem exec_cmdWriteReg_past_end (s : State) {start count : Nat} (h : 4 < start + count) :
    exec (.cmdWriteReg start count) s = .next (s.withResponse (.err .invalidAddress)) := by
  rcases writeFrame_cases s.block.regs start count with ⟨hin, -⟩ | ⟨-, hframe⟩
  · omega
  · simp only [exec, execCmdWriteReg, hframe, raiseError_eq]

/-- Settles O23, opcode by opcode: a register access sends the byte presented, since that packs its own operands. -/
theorem followingBytesKnownFromByte : Obligations.FollowingBytesKnownFromByte := by
  intro c i s h
  obtain ⟨o, ho, rfl⟩ := decode_command_eq_ok_iff.mp h
  have honly : ∀ p, Spells Config.opcodeByte p c ↔ p = o :=
    fun p => ⟨fun hp => Spells.unique opcodeByte_admissible hp ho, fun hp => hp ▸ ho⟩
  have hdata : c = Config.opcodeByte .readData ↔ .readData = o := honly .readData
  have hread : c &&& 0xF0 = Config.opcodeByte .readReg ↔ .readReg = o := honly .readReg
  have hwrite : c &&& 0xF0 = Config.opcodeByte .writeReg ↔ .writeReg = o := honly .writeReg
  rw [← startOfCommand_eq, ← countOfCommand_eq]
  simp only [hdata, hread, hwrite]
  obtain ⟨hlow, hhigh⟩ := countOfCommand_bounds c
  cases o with
  | reset | shutdown | start =>
    obtain rfl : c = _ := ho
    exact ⟨by simp, fun _ => ⟨.nothing, rfl, fun _ => rfl⟩⟩
  | readData =>
    obtain rfl : c = _ := ho
    exact ⟨by simp, fun _ => ⟨.sampleFromChip, rfl, fun _ => rfl⟩⟩
  | readReg =>
    have hexec := exec_cmdReadReg s (startOfCommand_le c) hlow hhigh
    rw [addressedByte_of_spells rfl ho] at hexec
    exact ⟨by simp, fun _ => ⟨_, hexec, fun _ => rfl⟩⟩
  | writeReg =>
    refine ⟨fun hpast => exec_cmdWriteReg_past_end s hpast.2, fun hin => ?_⟩
    obtain ⟨payload, hlen, hexec⟩ := exec_cmdWriteReg_inside s hlow (Nat.le_of_not_lt fun hlt => hin ⟨rfl, hlt⟩)
    rw [addressedByte_of_spells rfl ho] at hexec
    exact ⟨_, hexec, fun _ => hlen⟩

/-! ### AVG (R61) -/

theorem runUntilErr_singleton {i : Instr} {s t : State} (h : exec i s = .next t) : runUntilErr [i] s = .next t := by
  cases ht : t.erred with
  | true => exact runUntilErr_cons_err [] h ht
  | false => exact runUntilErr_cons_ok [] h ht

/-- R117: AMEAN answers one division, and of no sample OutOfRange. -/
theorem exec_amean (s : State) : exec .amean s = .next { s with
    response := some (if s.block.accN = 0 then .err .outOfRange
      else .ok (.num (Config.rnd ((s.block.accSum : Rat) / (s.block.accN : Rat))))) } := by
  simp only [exec, execAmean, Block.mean]
  split <;> rfl

theorem exec_aadd {z : Int} (hz : -(2 ^ 23) ≤ z ∧ z ≤ 2 ^ 23 - 1) (s : State) :
    exec (.aadd z) s = .next ((s.withBlock (s.block.accumulate z)).withResponse (.ok .none)) := by
  simp [exec, execAadd, (sampleInRange_iff z).mpr hz]

/-- The block with `sum` of `n` more samples in its accumulator. -/
def Block.accumulateSum (b : Block) (sum : Int) (n : Nat) : Block :=
  { b with accSum := b.accSum + sum, accN := b.accN + n }

theorem Block.accumulateSum_accumulate (b : Block) (z sum : Int) (n : Nat) :
    (b.accumulate z).accumulateSum sum n = b.accumulateSum (z + sum) (n + 1) := by
  simp [accumulate, accumulateSum, Int.add_assoc, Nat.add_assoc, Nat.add_comm 1 n]

/-- A run of AADDs adds up its samples and goes on; each answers Ok. -/
theorem runUntilErr_aadds (rest : List Instr) (l : List Int) (hl : ∀ z ∈ l, -(2 ^ 23) ≤ z ∧ z ≤ 2 ^ 23 - 1)
    (s : State) : ∃ r, runUntilErr (l.map .aadd ++ rest) s =
      runUntilErr rest { s with block := s.block.accumulateSum l.sum l.length, response := r } := by
  induction l generalizing s with
  | nil => exact ⟨s.response, by simp [Block.accumulateSum]⟩
  | cons z l ih =>
    obtain ⟨r, hr⟩ := ih (fun y hy => hl y (.tail z hy))
      ((s.withBlock (s.block.accumulate z)).withResponse (.ok .none))
    refine ⟨r, ?_⟩
    rw [List.map_cons, List.cons_append, runUntilErr_cons_ok _ (exec_aadd (hl z (.head l)) s) rfl, hr]
    simp [Block.accumulateSum_accumulate]

/-- Settles O35: ACLR empties the accumulator, the AADDs add up the list, and AMEAN divides once. -/
theorem averageIsSumDividedOnce : Obligations.AverageIsSumDividedOnce := by
  intro l s hl
  have hclear : exec .aclr s = .next ((s.withBlock s.block.clearAcc).withResponse (.ok .none)) := rfl
  obtain ⟨r, hadds⟩ := runUntilErr_aadds [.amean] l hl ((s.withBlock s.block.clearAcc).withResponse (.ok .none))
  rw [Pseudo.expand, List.cons_append, runUntilErr_cons_ok _ hclear rfl, hadds, runUntilErr_singleton (exec_amean _)]
  simp [Block.accumulateSum, Block.clearAcc]

end Sys2Proof.Machine
end

section
/-! PROOFS of the family `40_register_fields.md`: what a field's bits are after the field is written and what they read
as, and from that ENCF, DECF, SETF and GETF. -/

namespace Sys2Proof

/-- Bit `i` of a register is one of the field's bits (R12): `FieldSlot.Holds` of the field's own register. -/
abbrev FieldSlot.Covers (sl : FieldSlot) (i : Nat) : Prop := sl.lsb ≤ i ∧ i < sl.lsb + sl.width

end Sys2Proof

namespace Sys2Proof.Machine

/-! ### The bits of a field (R12) -/

/-- The field partition invariant (R12): two fields of one register share no bit. -/
theorem not_covers_of_partitions {F : Type} {table : F → FieldSlot} (hT : Partitions table) {f g : F} (hne : g ≠ f)
    (hreg : (table g).reg = (table f).reg) {i : Nat} (hi : i < 8) (hf : (table f).Covers i) :
    ¬ (table g).Covers i := by
  intro hg
  obtain ⟨owner, -, honly⟩ := hT.2 (table f).reg ⟨i, hi⟩
  exact hne ((honly g ⟨hreg, hg⟩).trans (honly f ⟨rfl, hf⟩).symm)

/-- A value that fits a width is a natural number of that many bits (R65). -/
theorem exists_nat_of_fits {w : Nat} {v : Int} (h : 0 ≤ v ∧ v < 2 ^ w) : ∃ n : Nat, v = n ∧ n < 2 ^ w := by
  obtain ⟨n, rfl⟩ := Int.eq_ofNat_of_zero_le h.1
  exact ⟨n, rfl, by exact_mod_cast h.2⟩

theorem testBit_eq_false_of_lt {w n : Nat} (hn : n < 2 ^ w) {j : Nat} (hj : w ≤ j) : n.testBit j = false :=
  Nat.testBit_lt_two_pow (hn.trans_le (Nat.pow_le_pow_right (by decide) hj))

theorem getLsbD_fieldMask (sl : FieldSlot) {i : Nat} (hi : i < 8) :
    (fieldMask sl).getLsbD i = decide (sl.Covers i) := by
  rw [fieldMask, BitVec.getLsbD_ofNat, Nat.testBit_shiftLeft, Nat.testBit_two_pow_sub_one, decide_eq_true hi,
    Bool.true_and, ← Bool.decide_and]
  exact decide_eq_decide.mpr (by unfold FieldSlot.Covers; omega)

/-- R65's subtraction from 0xFF is bitwise complement. -/
theorem sub_fieldMask_eq_not (sl : FieldSlot) : 0xFF - fieldMask sl = ~~~fieldMask sl :=
  BitVec.allOnes_sub_eq_not _

theorem getLsbD_sub_fieldMask (sl : FieldSlot) {i : Nat} (hi : i < 8) :
    (0xFF - fieldMask sl).getLsbD i = !decide (sl.Covers i) := by
  rw [sub_fieldMask_eq_not, BitVec.getLsbD_not,
    getLsbD_fieldMask sl hi, decide_eq_true hi, Bool.true_and]

/-- A field's value, shifted to its place, is a byte (R65). -/
theorem shiftLeft_lt_of_fits {sl : FieldSlot} (hsl : sl.Fits) {n : Nat} (hn : n < 2 ^ sl.width) :
    n <<< sl.lsb < 2 ^ 8 :=
  calc n <<< sl.lsb = n * 2 ^ sl.lsb := Nat.shiftLeft_eq n sl.lsb
    _ < 2 ^ sl.width * 2 ^ sl.lsb := Nat.mul_lt_mul_of_pos_right hn (Nat.two_pow_pos _)
    _ = 2 ^ (sl.width + sl.lsb) := (Nat.pow_add ..).symm
    _ ≤ 2 ^ 8 := Nat.pow_le_pow_right (by decide) (by omega)

/-! ### Reading a field (R66) -/

theorem decodeField_eq_mod (sl : FieldSlot) (reg : Byte) :
    decodeField sl reg = (reg.toNat / 2 ^ sl.lsb % 2 ^ sl.width : Nat) := by
  rw [decodeField, Nat.and_two_pow_sub_one_eq_mod, Nat.shiftRight_eq_div_pow]

theorem decodeField_fits (sl : FieldSlot) (reg : Byte) :
    0 ≤ decodeField sl reg ∧ decodeField sl reg < 2 ^ sl.width := by
  rw [decodeField_eq_mod]
  exact ⟨Int.natCast_nonneg _, by exact_mod_cast Nat.mod_lt _ (Nat.two_pow_pos _)⟩

/-- A field reads as `n` exactly when its bits are those of `n`. -/
theorem decodeField_eq_iff {sl : FieldSlot} {reg : Byte} {n : Nat} (hn : n < 2 ^ sl.width) :
    decodeField sl reg = n ↔ ∀ i, sl.Covers i → reg.getLsbD i = n.testBit (i - sl.lsb) := by
  rw [decodeField, Int.natCast_inj]
  have hbit : ∀ j, (reg.toNat >>> sl.lsb &&& (2 ^ sl.width - 1)).testBit j =
      (reg.getLsbD (sl.lsb + j) && decide (j < sl.width)) := fun j => by
    rw [Nat.testBit_and, Nat.testBit_shiftRight, BitVec.testBit_toNat, Nat.testBit_two_pow_sub_one]
  constructor
  · intro h i hi
    rw [← h, hbit, Nat.add_sub_cancel' hi.1, decide_eq_true (by omega), Bool.and_true]
  · intro h
    refine Nat.eq_of_testBit_eq fun j => ?_
    rw [hbit]
    by_cases hj : j < sl.width
    · rw [h (sl.lsb + j) ⟨by omega, by omega⟩, Nat.add_sub_cancel_left, decide_eq_true hj, Bool.and_true]
    · rw [decide_eq_false hj, Bool.and_false, testBit_eq_false_of_lt hn (by omega)]

/-- A field reads the same in two bytes that agree on its bits. -/
theorem decodeField_congr {sl : FieldSlot} {b c : Byte}
    (h : ∀ i < 8, sl.Covers i → b.getLsbD i = c.getLsbD i) : decodeField sl b = decodeField sl c := by
  obtain ⟨n, hc, hn⟩ := exists_nat_of_fits (decodeField_fits sl c)
  rw [hc, decodeField_eq_iff hn]
  intro i hi
  rw [← (decodeField_eq_iff hn).mp hc i hi]
  by_cases hlt : i < 8
  · exact h i hlt hi
  · rw [BitVec.getLsbD_of_ge b i (by omega), BitVec.getLsbD_of_ge c i (by omega)]

/-! ### Writing a field (R65) -/

/-- R65's read-modify-write of a value that fits: what `encodeField` answers (`encodeField_nat`). -/
def replaceField (sl : FieldSlot) (reg : Byte) (n : Nat) : Byte :=
  (reg &&& (0xFF - fieldMask sl)) ||| BitVec.ofNat 8 (n <<< sl.lsb)

theorem encodeField_nat {sl : FieldSlot} {n : Nat} (hn : n < 2 ^ sl.width) (reg : Byte) :
    encodeField sl reg n = .ok (replaceField sl reg n) :=
  encodeField_fits reg ⟨Int.natCast_nonneg n, by exact_mod_cast hn⟩

/-- R65's formula on bytes is the same formula on numbers. -/
theorem replaceField_toNat {sl : FieldSlot} (hsl : sl.Fits) {n : Nat} (hn : n < 2 ^ sl.width) (reg : Byte) :
    (replaceField sl reg n).toNat =
      (reg.toNat &&& (255 - ((2 ^ sl.width - 1) <<< sl.lsb))) ||| (n <<< sl.lsb) := by
  have hmask : (2 ^ sl.width - 1) <<< sl.lsb < 2 ^ 8 :=
    shiftLeft_lt_of_fits hsl (Nat.sub_lt (Nat.two_pow_pos _) Nat.one_pos)
  rw [replaceField, sub_fieldMask_eq_not, BitVec.toNat_or,
    BitVec.toNat_and, BitVec.toNat_not, fieldMask, BitVec.toNat_ofNat, BitVec.toNat_ofNat, Nat.mod_eq_of_lt hmask,
    Nat.mod_eq_of_lt (shiftLeft_lt_of_fits hsl hn)]

/-- After the write a bit of the field is the value's, and any other bit is as before. -/
theorem getLsbD_replaceField {sl : FieldSlot} {n : Nat} (hn : n < 2 ^ sl.width) (reg : Byte) {i : Nat} (hi : i < 8) :
    (replaceField sl reg n).getLsbD i =
      if sl.Covers i then n.testBit (i - sl.lsb) else reg.getLsbD i := by
  rw [replaceField, BitVec.getLsbD_or, BitVec.getLsbD_and, getLsbD_sub_fieldMask sl hi, BitVec.getLsbD_ofNat,
    Nat.testBit_shiftLeft, decide_eq_true hi, Bool.true_and]
  split
  case isTrue hc => simp [hc]
  case isFalse hc =>
    have hzero : (decide (i ≥ sl.lsb) && n.testBit (i - sl.lsb)) = false := by
      by_cases hle : sl.lsb ≤ i
      · rw [testBit_eq_false_of_lt hn (by omega), Bool.and_false]
      · rw [decide_eq_false hle, Bool.false_and]
    simp [hc, hzero]

theorem decodeField_replaceField_same {sl : FieldSlot} (hsl : sl.Fits) {n : Nat} (hn : n < 2 ^ sl.width) (reg : Byte) :
    decodeField sl (replaceField sl reg n) = n :=
  (decodeField_eq_iff hn).mpr fun i hi => by rw [getLsbD_replaceField hn reg (by omega), if_pos hi]

theorem decodeField_replaceField_disjoint {sl sl' : FieldSlot} {n : Nat} (hn : n < 2 ^ sl.width)
    (hdisj : ∀ i < 8, sl.Covers i → ¬ sl'.Covers i) (reg : Byte) :
    decodeField sl' (replaceField sl reg n) = decodeField sl' reg :=
  decodeField_congr fun i hi hcov => by
    rw [getLsbD_replaceField hn reg hi, if_neg fun h => hdisj i hi h hcov]

theorem replaceField_keeps_outside {sl : FieldSlot} {n : Nat} (hn : n < 2 ^ sl.width) (reg : Byte) :
    replaceField sl reg n &&& (0xFF - fieldMask sl) = reg &&& (0xFF - fieldMask sl) := by
  refine BitVec.eq_of_getLsbD_eq fun i hi => ?_
  rw [BitVec.getLsbD_and, BitVec.getLsbD_and, getLsbD_sub_fieldMask sl hi, getLsbD_replaceField hn reg hi]
  split <;> simp [*]

/-- Writing the value a field already reads as changes no bit. -/
theorem replaceField_of_decodeField_eq {sl : FieldSlot} {reg : Byte} {n : Nat} (hn : n < 2 ^ sl.width)
    (h : decodeField sl reg = n) : replaceField sl reg n = reg := by
  refine BitVec.eq_of_getLsbD_eq fun i hi => ?_
  rw [getLsbD_replaceField hn reg hi]
  split
  · exact ((decodeField_eq_iff hn).mp h i ‹_›).symm
  · rfl

theorem replaceField_comm {sl sl' : FieldSlot} {n m : Nat} (hn : n < 2 ^ sl.width) (hm : m < 2 ^ sl'.width)
    (hdisj : ∀ i < 8, sl.Covers i → ¬ sl'.Covers i) (reg : Byte) :
    replaceField sl' (replaceField sl reg n) m = replaceField sl (replaceField sl' reg m) n := by
  refine BitVec.eq_of_getLsbD_eq fun i hi => ?_
  simp only [getLsbD_replaceField hn _ hi, getLsbD_replaceField hm _ hi]
  by_cases h : sl.Covers i
  · rw [if_pos h, if_pos h, if_neg (hdisj i hi h)]
  · rw [if_neg h, if_neg h]

/-! ### Any field table (R67) -/

/-- Settles O14: the written bits are the value's, and R12 gives no other field any of them. -/
theorem fieldRoundTripLaw : Obligations.FieldRoundTripLaw := by
  intro F table hT f reg v hv hlt
  obtain ⟨n, rfl, hn⟩ := exists_nat_of_fits ⟨hv, hlt⟩
  exact ⟨replaceField (table f) reg n, encodeField_nat hn reg, decodeField_replaceField_same (hT.1 f) hn reg,
    fun g hne hreg => decodeField_replaceField_disjoint hn (fun i hi => not_covers_of_partitions hT hne hreg hi) reg,
    replaceField_keeps_outside hn reg⟩

/-- Settles O15: what a field reads as fits it, and writing it back puts each bit where it was. R12 is not
needed: only the field's own bits are written. -/
theorem writingBackChangesNothing : Obligations.WritingBackChangesNothing := by
  intro F table _ f reg
  obtain ⟨n, hread, hn⟩ := exists_nat_of_fits (decodeField_fits (table f) reg)
  rw [hread, encodeField_nat hn, replaceField_of_decodeField_eq hn hread]

/-! ### ENCF and DECF (R68, R69) -/

/-- Settles O10: ENCF answers R65's byte or its error. -/
theorem encfReplacesField : Obligations.EncfReplacesField := by
  intro reg f v s
  constructor
  · intro hv
    obtain ⟨n, rfl, hn⟩ := exists_nat_of_fits hv
    refine ⟨replaceField (Config.fieldTable f) reg n, ?_, replaceField_toNat (fieldTable_fits f) hn reg⟩
    rw [exec, execEncf, encodeField_nat hn]
    rfl
  · intro hv
    rw [exec, execEncf, encodeField_outside reg hv]
    rfl

/-- Settles O11: extracting bits is a division and a remainder. -/
theorem decfExtractsField : Obligations.DecfExtractsField := by
  intro reg f s
  rw [← decodeField_eq_mod]
  rfl

/-! ### Fields of the shadow registers (R70, R71) -/

/-- What a field of the shadow registers reads as. -/
def Regs.readField (r : Regs) (f : FieldId) : Int :=
  decodeField (Config.fieldTable f) (r.get (Config.fieldTable f).reg)

/-- The shadow registers with one field replaced. -/
def Regs.writeField (r : Regs) (f : FieldId) (n : Nat) : Regs :=
  r.set (Config.fieldTable f).reg (replaceField (Config.fieldTable f) (r.get (Config.fieldTable f).reg) n)

theorem exec_getf (f : FieldId) (s : State) :
    exec (.getf f) s = .next (s.withResponse (.ok (.int (s.block.regs.readField f)))) := rfl

theorem exec_getf_eq_iff (f : FieldId) (s : State) (z : Int) :
    exec (.getf f) s = .next { s with response := some (.ok (.int z)) } ↔ s.block.regs.readField f = z := by
  simp [exec_getf, State.withResponse]

theorem exec_setf_fits (f : FieldId) {n : Nat} (hn : n < 2 ^ (Config.fieldTable f).width) (s : State) :
    exec (.setf f n) s =
      .next ((s.withBlock (s.block.withRegs (s.block.regs.writeField f n))).withResponse (.ok .none)) := by
  rw [exec, execSetf, encodeField_nat hn]
  rfl

theorem exec_setf_outside (f : FieldId) {v : Int} (hv : v < 0 ∨ 2 ^ (Config.fieldTable f).width ≤ v) (s : State) :
    exec (.setf f v) s = .next (s.withResponse (.err .outOfRange)) := by
  rw [exec, execSetf, encodeField_outside _ hv]
  rfl

theorem Regs.get_writeField (r : Regs) (f : FieldId) (n : Nat) (a : Fin 4) :
    (r.writeField f n).get a =
      if a = (Config.fieldTable f).reg then replaceField (Config.fieldTable f) (r.get a) n else r.get a := by
  split
  case isTrue ha => rw [ha, writeField, get_set_same]
  case isFalse ha => exact get_set_other r _ ha

/-- Different fields of the default table in one register share no bit. -/
theorem fieldTable_disjoint {f g : FieldId} (hne : g ≠ f)
    (hreg : (Config.fieldTable g).reg = (Config.fieldTable f).reg) :
    ∀ i < 8, (Config.fieldTable f).Covers i → ¬ (Config.fieldTable g).Covers i :=
  fun _ hi => not_covers_of_partitions defaultFieldTablePartitions.1 hne hreg hi

theorem Regs.readField_writeField_same (r : Regs) (f : FieldId) {n : Nat} (hn : n < 2 ^ (Config.fieldTable f).width) :
    (r.writeField f n).readField f = n := by
  rw [readField, get_writeField, if_pos rfl, decodeField_replaceField_same (fieldTable_fits f) hn]

theorem Regs.readField_writeField_other (r : Regs) {f g : FieldId} (hne : g ≠ f) {n : Nat}
    (hn : n < 2 ^ (Config.fieldTable f).width) : (r.writeField f n).readField g = r.readField g := by
  rw [readField, readField, get_writeField]
  split
  case isTrue hreg => exact decodeField_replaceField_disjoint hn (fieldTable_disjoint hne hreg) _
  case isFalse => rfl

/-- Writes of different fields commute: in one register since their bits differ, in two since neither touches the
other. -/
theorem Regs.writeField_comm (r : Regs) {f g : FieldId} (hne : g ≠ f) {n m : Nat}
    (hn : n < 2 ^ (Config.fieldTable f).width) (hm : m < 2 ^ (Config.fieldTable g).width) :
    (r.writeField f n).writeField g m = (r.writeField g m).writeField f n := by
  refine Regs.ext_get fun a => ?_
  simp only [get_writeField]
  split_ifs with hg hf
  · exact replaceField_comm hn hm (fieldTable_disjoint hne (hg.symm.trans hf)) _
  all_goals rfl

/-- Settles O12: SETF puts R65's byte in the field's register, or raises its error. -/
theorem setfReplacesFieldOfRegister : Obligations.SetfReplacesFieldOfRegister := by
  intro f v s
  constructor
  · intro hv
    obtain ⟨n, rfl, hn⟩ := exists_nat_of_fits hv
    refine ⟨s.block.regs.writeField f n, exec_setf_fits f hn s, ?_, fun a ha => ?_⟩
    · rw [Regs.get_writeField, if_pos rfl, replaceField_toNat (fieldTable_fits f) hn]
      rfl
    · rw [Regs.get_writeField, if_neg ha]
  · intro hv
    exact exec_setf_outside f hv s

/-- Settles O13: GETF reads its field as DECF does. -/
theorem getfReadsField : Obligations.GetfReadsField := by
  intro f s
  rw [← decodeField_eq_mod]
  rfl

/-- Settles O16: a SETF that answers Ok wrote a value that fits. -/
theorem setfThenGetfReturnsValue : Obligations.SetfThenGetfReturnsValue := by
  intro f v s t h ht
  by_cases hv : 0 ≤ v ∧ v < 2 ^ (Config.fieldTable f).width
  · obtain ⟨n, rfl, hn⟩ := exists_nat_of_fits hv
    rw [exec_setf_fits f hn] at h
    cases h
    simp only [exec_getf_eq_iff]
    exact ⟨Regs.readField_writeField_same _ f hn, fun g z hne => (Regs.readField_writeField_other _ hne hn).trans⟩
  · rw [exec_setf_outside f (by omega)] at h
    cases h
    cases ht

theorem runUntilErr_setf_setf {f g : FieldId} {n m : Nat} (hn : n < 2 ^ (Config.fieldTable f).width)
    (hm : m < 2 ^ (Config.fieldTable g).width) (s : State) :
    runUntilErr [.setf f n, .setf g m] s = .next
      ((s.withBlock (s.block.withRegs ((s.block.regs.writeField f n).writeField g m))).withResponse (.ok .none)) :=
  (runUntilErr_cons_ok _ (exec_setf_fits f hn s) rfl).trans (runUntilErr_singleton (exec_setf_fits g hm _))

/-- Settles O17: both SETFs answer Ok, and their writes commute. -/
theorem setfOfDifferentFieldsCommute : Obligations.SetfOfDifferentFieldsCommute := by
  intro f g v w s hne hv hvlt hw hwlt
  obtain ⟨n, rfl, hn⟩ := exists_nat_of_fits ⟨hv, hvlt⟩
  obtain ⟨m, rfl, hm⟩ := exists_nat_of_fits ⟨hw, hwlt⟩
  refine ⟨_, runUntilErr_setf_setf hn hm s, ?_, rfl⟩
  rw [runUntilErr_setf_setf hm hn, Regs.writeField_comm _ hne hm hn]

end Sys2Proof.Machine
end

section
/-! PROOFS of the family `41_command_bytes.md`: the bits of a built command byte, then BCMD and the wire commands. -/

namespace Sys2Proof.Machine

/-! ### The bits of a register-access byte (R80, R81) -/

/-- A start address fills bits 3:2 at most, so its mask takes nothing away. -/
theorem startBits_unmasked {start : Nat} (hs : start ≤ 3) : (start <<< 2) &&& 0x0C = start <<< 2 := by
  interval_cases start <;> rfl

/-- A count, less one, fills bits 1:0 at most. -/
theorem countBits_unmasked {count : Nat} (hhigh : count ≤ 4) : (count - 1) &&& 0x03 = count - 1 := by
  rw [Nat.and_two_pow_sub_one_eq_mod _ 2]
  omega

/-- R80's formula on numbers: for operands in range no step of it leaves the byte. -/
theorem addressedByte_toNat (op : Byte) {start count : Nat} (hs : start ≤ 3) (hlow : 1 ≤ count)
    (hhigh : count ≤ 4) :
    (addressedByte op start count).toNat =
      (op.toNat &&& 0xF0) ||| ((start <<< 2) &&& 0x0C) ||| ((count - 1) &&& 0x03) := by
  have hcount : (count : Int) - 1 = (count - 1 : Nat) := by omega
  have hshift : start <<< 2 < 256 := by omega
  simp only [addressedByte, hcount, BitVec.ofInt_natCast, BitVec.toNat_or, BitVec.toNat_and, BitVec.toNat_shiftLeft,
    BitVec.toNat_ofNat]
  rw [Nat.mod_eq_of_lt (a := start) (by omega), Nat.mod_eq_of_lt (a := count - 1) (by omega), Nat.mod_eq_of_lt hshift]
  rfl

/-- The opcode leaves the low nibble to the operands (R81). -/
theorem addressedByte_lowNibble (op : Byte) {start count : Nat} (hs : start ≤ 3) (hlow : 1 ≤ count)
    (hhigh : count ≤ 4) :
    (addressedByte op start count).toNat % 16 = ((start <<< 2) &&& 0x0C) ||| ((count - 1) &&& 0x03) := by
  have hopcode : (op.toNat &&& 0xF0) % 2 ^ 4 = 0 := by
    rw [Nat.and_mod_two_pow]
    exact Nat.and_zero _
  have hoperands : ((start <<< 2) &&& 0x0C) ||| ((count - 1) &&& 0x03) < 2 ^ 4 :=
    Nat.or_lt_two_pow (Nat.and_lt_two_pow _ (by decide)) (Nat.and_lt_two_pow _ (by decide))
  rw [addressedByte_toNat op hs hlow hhigh, Nat.or_assoc, Nat.or_mod_two_pow (n := 4), hopcode, Nat.zero_or,
    Nat.mod_eq_of_lt hoperands]

/-- The default register-access bytes under the operands as they stand, no mask needed (R87, R88). -/
theorem addressedByte_opcodeByte_toNat {opc : OpcodeId} (ho : opc.registerAccess = true) {start count : Nat}
    (hs : start ≤ 3) (hlow : 1 ≤ count) (hhigh : count ≤ 4) :
    (addressedByte (Config.opcodeByte opc) start count).toNat =
      (Config.opcodeByte opc).toNat ||| (start <<< 2) ||| (count - 1) := by
  have hopcode : (Config.opcodeByte opc).toNat &&& 0xF0 = (Config.opcodeByte opc).toNat :=
    congrArg BitVec.toNat (opcodeByte_highNibble ho)
  rw [addressedByte_toNat _ hs hlow hhigh, hopcode, startBits_unmasked hs, countBits_unmasked hhigh]

/-! ### Building a register-access byte (R33, R80) -/

section
variable (byteOf : OpcodeId → Byte) {opc : OpcodeId} (ho : opc.registerAccess = true)
include ho

theorem buildCommand_inside {start count : Nat} (hs : start ≤ 3) (hlow : 1 ≤ count) (hhigh : count ≤ 4) :
    buildCommand byteOf opc start count = .ok (addressedByte (byteOf opc) start count) := by
  rw [buildCommand_addressed _ _ _ ho, if_pos (by omega)]

theorem buildCommand_outside {start count : Int} (h : start < 0 ∨ 3 < start ∨ count < 1 ∨ 4 < count) :
    buildCommand byteOf opc start count = .error .invalidAddress := by
  rw [buildCommand_addressed _ _ _ ho, if_neg (by omega)]

/-- What a built byte tells of what it was built from. -/
theorem operands_of_buildCommand {byteOf} {start count : Int} {b : Byte}
    (h : buildCommand byteOf opc start count = .ok b) :
    startOfCommand b = start ∧ countOfCommand b = count ∧ b &&& 0xF0 = byteOf opc &&& 0xF0 := by
  by_cases hin : start < 0 ∨ 3 < start ∨ count < 1 ∨ 4 < count
  · rw [buildCommand_outside byteOf ho hin] at h
    cases h
  · lift start to Nat using by omega
    lift count to Nat using by omega
    rw [buildCommand_inside byteOf ho (by omega) (by omega) (by omega)] at h
    cases h
    exact_mod_cast addressedByte_fields (byteOf opc) start count (by omega) (by omega) (by omega)

end

/-- Settles O18: R80's byte inside the range, its error outside, and the opcode's own byte where no operand counts. -/
theorem bcmdBuildsCommandByte : Obligations.BcmdBuildsCommandByte := by
  intro opc start count s
  have hexec : exec (.bcmd opc start count) s =
      answer (Answer.ofExcept .byte (buildCommand Config.opcodeByte opc start count)) s := rfl
  rw [hexec]
  refine ⟨fun ho hs0 hs hlow hhigh => ?_, fun ho hout => ?_, fun ho => ?_⟩
  · lift start to Nat using hs0
    lift count to Nat using by omega
    norm_cast at hs hlow hhigh
    rw [buildCommand_inside _ ho hs hlow hhigh]
    exact ⟨_, rfl, addressedByte_toNat _ hs hlow hhigh⟩
  · rw [buildCommand_outside _ ho hout]
    rfl
  · rw [buildCommand_nonAddressed _ _ _ ho]
    rfl

/-- Settles O19: a register-access byte in range is built, and its opcode has no bit in the low nibble. -/
theorem commandLowNibbleLaw : Obligations.CommandLowNibbleLaw := by
  intro byteOf _ opc start count hopc hs0 hs hlow hhigh
  have ho : opc.registerAccess = true := by
    rcases hopc with rfl | rfl <;> rfl
  lift start to Nat using hs0
  lift count to Nat using by omega
  norm_cast at hs hlow hhigh
  exact ⟨_, buildCommand_inside byteOf ho hs hlow hhigh, addressedByte_lowNibble _ hs hlow hhigh⟩

/-- Settles O20: a byte tells its operands and its opcode's high nibble, and by R4 that nibble tells the opcode. -/
theorem commandOperandsRecoverable : Obligations.CommandOperandsRecoverable := by
  rintro byteOf ⟨-, -, hnibbles⟩
  constructor
  · intro opc start count ho hs0 hs hlow hhigh
    lift start to Nat using hs0
    lift count to Nat using by omega
    norm_cast at hs hlow hhigh
    have hb := buildCommand_inside byteOf ho hs hlow hhigh
    obtain ⟨hstart, hcount, hnibble⟩ := operands_of_buildCommand ho hb
    have hhighNibble := congrArg BitVec.toNat hnibble
    rw [highNibble_toNat, highNibble_toNat] at hhighNibble
    rw [startOfCommand_eq] at hstart
    rw [countOfCommand_eq] at hcount
    exact ⟨_, hb, by omega, hstart, hcount⟩
  · intro o p start count start' count' b ho hp hbo hbp
    obtain ⟨hstart, hcount, hnibble⟩ := operands_of_buildCommand ho hbo
    obtain ⟨hstart', hcount', hnibble'⟩ := operands_of_buildCommand hp hbp
    exact ⟨hnibbles p o hp (hnibble.symm.trans hnibble'), hstart.symm.trans hstart', hcount.symm.trans hcount'⟩

/-! ### Wire commands (R83 to R88) -/

/-- Settles O21: each of the four only transmits. -/
theorem nonAddressedCommandsTouchNoState : Obligations.NonAddressedCommandsTouchNoState := by
  intro s
  simp only [exec, execCmdReset, execCmdShutdown, execCmdStart, execCmdReadData, transmit_eq, State.withWire, and_self]

/-- R87: a READ_REG that BCMD refuses ends in BCMD's error and sends nothing. -/
theorem exec_cmdReadReg_outside (s : State) {start count : Nat} (h : 3 < start ∨ count < 1 ∨ 4 < count) :
    exec (.cmdReadReg start count) s = .next (s.withResponse (.err .invalidAddress)) := by
  simp only [exec, execCmdReadReg, transmitAddressed]
  rw [buildCommand_outside _ (opc := .readReg) rfl (by omega)]
  rfl

/-- What a WRITE_REG does: with registers that exist it sends what they hold (R88), else it ends in InvalidAddress and
sends nothing (R89, log entry 4). -/
theorem exec_cmdWriteReg_cases (start count : Nat) (s : State) :
    ((1 ≤ count ∧ start + count ≤ 4) ∧
      ∃ payload, memRead s.block.regs start count = some payload ∧ exec (.cmdWriteReg start count) s =
        .next (s.withWire ⟨addressedByte (Config.opcodeByte .writeReg) start count, .payloadToChip payload⟩)) ∨
    (¬ (1 ≤ count ∧ start + count ≤ 4) ∧
      exec (.cmdWriteReg start count) s = .next (s.withResponse (.err .invalidAddress))) := by
  rcases writeFrame_cases s.block.regs start count with ⟨hin, payload, hframe, hread⟩ | ⟨hout, hframe⟩
  · exact .inl ⟨by omega, payload, hread, by simp only [exec, execCmdWriteReg, hframe, transmit_eq]⟩
  · exact .inr ⟨by omega, by simp only [exec, execCmdWriteReg, hframe, raiseError_eq]⟩

/-- Settles O22: both send the byte BCMD builds, WRITE_REG with the registers read in order, or end in the error. -/
theorem registerCommandsTouchNoState : Obligations.RegisterCommandsTouchNoState := by
  intro start count s
  refine ⟨fun hs hlow hhigh => ?_, fun hlow hfit => ?_, exec_cmdReadReg_outside s, fun hout => ?_⟩
  · exact ⟨_, exec_cmdReadReg s hs hlow hhigh, addressedByte_opcodeByte_toNat rfl hs hlow hhigh⟩
  · rcases exec_cmdWriteReg_cases start count s with ⟨-, payload, hread, hexec⟩ | ⟨hout, -⟩
    · obtain ⟨l, hl, hlen, hget⟩ := memRead_inside s.block.regs count start hfit
      obtain rfl : l = payload := Option.some.inj (hl.symm.trans hread)
      exact ⟨_, l, hexec, addressedByte_opcodeByte_toNat rfl (by omega) hlow (by omega), hlen, hget⟩
    · exact absurd ⟨hlow, hfit⟩ hout
  · rcases exec_cmdWriteReg_cases start count s with ⟨hin, -⟩ | ⟨-, hexec⟩
    · omega
    · exact hexec

end Sys2Proof.Machine
end

section
/-! PROOFS of the family `42_frame_codec.md`: the code a frame spells and the number it stands for, and from that DSMP
and DSMPB; then EPAY and LPAY. -/

namespace Sys2Proof.Machine

/-! ### The code a frame spells (R31, R54, R100) -/

/-- A frame is a number written in base `2 ^ unit`, most significant digit first. -/
theorem assemble_eq_ofDigits (unit : Nat) (seq : List Nat) :
    assemble unit seq = Nat.ofDigits (2 ^ unit) seq.reverse := by
  simp [assemble, Nat.ofDigits_eq_foldr, Nat.add_comm, Nat.mul_comm]

theorem assemble_append (unit : Nat) (l m : List Nat) :
    assemble unit (l ++ m) = assemble unit l * 2 ^ (unit * m.length) + assemble unit m := by
  simp only [assemble_eq_ofDigits, List.reverse_append, Nat.ofDigits_append, List.length_reverse, Nat.pow_mul]
  ring

theorem assemble_cons (unit x : Nat) (seq : List Nat) :
    assemble unit (x :: seq) = x * 2 ^ (unit * seq.length) + assemble unit seq := by
  simpa [assemble] using assemble_append unit [x] seq

theorem assemble_bytes (bytes : List Byte) :
    assemble 8 (bytes.map BitVec.toNat) = bytes.foldl (fun u b => u * 256 + b.toNat) 0 := by
  simp [assemble, List.foldl_map]

theorem assemble_bits (bits : List Bool) :
    assemble 1 (bits.map Bool.toNat) = bits.foldl (fun u b => u * 2 + b.toNat) 0 := by
  simp [assemble, List.foldl_map]

theorem assemble_bytes_lt (bytes : List Byte) :
    assemble 8 (bytes.map BitVec.toNat) < 2 ^ (8 * bytes.length) := by
  simpa using assemble_lt 8 (bytes.map BitVec.toNat) (List.forall_mem_map.mpr fun b _ => b.isLt)

theorem assemble_bits_lt (bits : List Bool) : assemble 1 (bits.map Bool.toNat) < 2 ^ bits.length := by
  simpa using assemble_lt 1 (bits.map Bool.toNat) (List.forall_mem_map.mpr fun b _ => Bool.toNat_lt b)

theorem assemble_bytes_injective {bytes other : List Byte} (hlen : bytes.length = other.length)
    (h : assemble 8 (bytes.map BitVec.toNat) = assemble 8 (other.map BitVec.toNat)) : bytes = other := by
  have hdigits : ∀ l : List Byte, ∀ x ∈ (l.map BitVec.toNat).reverse, x < 2 ^ 8 := by
    simpa using fun _ b _ => b.isLt
  rw [assemble_eq_ofDigits, assemble_eq_ofDigits] at h
  have hrev := Nat.ofDigits_inj_of_len_eq (by decide) (by simp [hlen]) (hdigits bytes) (hdigits other) h
  exact List.map_injective_iff.mpr (fun _ _ => BitVec.eq_of_toNat_eq) (List.reverse_injective hrev)

theorem exists_bytes_of_code {n c : Nat} (hc : c < 2 ^ (8 * n)) :
    ∃ bytes : List Byte, bytes.length = n ∧ assemble 8 (bytes.map BitVec.toNat) = c := by
  obtain ⟨digits, ⟨hlen, hdigits⟩, hcode⟩ :=
    (Nat.bijOn_ofDigits (b := 2 ^ 8) (by decide) n).surjOn (by simpa [Nat.pow_mul] using hc)
  refine ⟨(digits.map (BitVec.ofNat 8)).reverse, by simpa using hlen, ?_⟩
  have hback : digits.map (BitVec.toNat ∘ BitVec.ofNat 8) = digits :=
    (List.map_congr_left fun x hx => Nat.mod_eq_of_lt (hdigits x hx)).trans (List.map_id' digits)
  rw [assemble_eq_ofDigits, List.map_reverse, List.reverse_reverse, List.map_map, hback, hcode]

/-- The weights of R54: bit `k` of `n`, counted from the first received, counts `2 ^ (n - 1 - k)`. -/
theorem assemble_bits_eq_sum (bits : List Bool) :
    assemble 1 (bits.map Bool.toNat) =
      ((List.range bits.length).map fun k => (bits.getD k false).toNat * 2 ^ (bits.length - 1 - k)).sum := by
  induction bits with
  | nil => rfl
  | cons b bits ih =>
    rw [List.map_cons, assemble_cons, ih]
    simp [List.range_succ_eq_map, Function.comp_def, Nat.sub_add_eq, Nat.sub_right_comm]

/-- The low `n` bits of a number, most significant first, spell the number they make up. -/
theorem assemble_testBit (u n : Nat) :
    assemble 1 ((List.range n).map fun k => (u.testBit (n - 1 - k)).toNat) = u % 2 ^ n := by
  induction n with
  | zero => simp [assemble, Nat.mod_one]
  | succ n ih =>
    rw [Nat.mod_pow_succ, ← Nat.toNat_testBit, ← ih, List.range_succ_eq_map, List.map_cons, assemble_cons]
    simp [Function.comp_def, Nat.sub_add_eq, Nat.sub_right_comm, Nat.add_comm, Nat.mul_comm]

/-- The bits of a byte in the order they are received, bit 7 first (R103). -/
def bitsOfByte (b : Byte) : List Bool := (List.range 8).map fun k => b.getLsbD (7 - k)

@[simp] theorem length_bitsOfByte (b : Byte) : (bitsOfByte b).length = 8 := by simp [bitsOfByte]

theorem assemble_bitsOfByte (b : Byte) : assemble 1 ((bitsOfByte b).map Bool.toNat) = b.toNat := by
  rw [bitsOfByte, List.map_map, ← Nat.mod_eq_of_lt b.isLt, ← assemble_testBit b.toNat 8]
  rfl

/-- The bits of a frame spell its code (R103). -/
theorem assemble_flatMap_bitsOfByte (bytes : List Byte) :
    assemble 1 ((bytes.flatMap bitsOfByte).map Bool.toNat) = assemble 8 (bytes.map BitVec.toNat) := by
  induction bytes with
  | nil => rfl
  | cons b bytes ih =>
    rw [List.flatMap_cons, List.map_append, assemble_append, assemble_bitsOfByte, ih, List.map_cons, assemble_cons]
    simp [Nat.mul_comm]

/-! ### The number a code stands for (R7, R101) -/

theorem sext_eq_of_lt {n u : Nat} (hn : 0 < n) (hu : u < 2 ^ n) :
    sext n u = if u < 2 ^ (n - 1) then (u : Int) else (u : Int) - 2 ^ n := by
  obtain ⟨w, rfl⟩ : ∃ w, n = w + 1 := ⟨n - 1, by omega⟩
  exact sext_eq w u hu

/-- Two's complement (R101): a code stands for the one number of the signed range that is the code modulo `2 ^ n`. -/
theorem sext_eq_iff {n u : Nat} (hn : 0 < n) (hu : u < 2 ^ n) (r : Int) :
    sext n u = r ↔ (-(2 ^ (n - 1)) ≤ r ∧ r ≤ 2 ^ (n - 1) - 1) ∧ r % 2 ^ n = u := by
  have hpow : 2 ^ n = 2 ^ (n - 1) * 2 := (Nat.two_pow_pred_mul_two hn).symm
  rw [sext_eq_of_lt hn hu]
  zify at hu hpow ⊢
  rw [hpow] at hu ⊢
  generalize (2 ^ (n - 1) : Int) = half at hu ⊢
  constructor
  · rintro rfl
    split
    · exact ⟨by omega, Int.emod_eq_of_lt (by omega) hu⟩
    · exact ⟨by omega, by rw [Int.sub_emod_right, Int.emod_eq_of_lt (by omega) hu]⟩
  · rintro ⟨hrange, hcode⟩
    by_cases hr : 0 ≤ r
    · rw [Int.emod_eq_of_lt hr (by omega)] at hcode
      rw [if_pos (by omega), hcode]
    · rw [← Int.add_emod_right, Int.emod_eq_of_lt (by omega) (by omega)] at hcode
      rw [if_neg (by omega)]
      omega

theorem sext_injective {n u v : Nat} (hn : 0 < n) (hu : u < 2 ^ n) (hv : v < 2 ^ n) (h : sext n u = sext n v) :
    u = v := by
  obtain ⟨-, hcode⟩ := (sext_eq_iff hn hu _).mp h
  obtain ⟨-, hcode'⟩ := (sext_eq_iff hn hv _).mp rfl
  exact_mod_cast hcode.symm.trans hcode'

theorem exists_code_of_signed {n : Nat} (hn : 0 < n) {r : Int} (hr : -(2 ^ (n - 1)) ≤ r ∧ r ≤ 2 ^ (n - 1) - 1) :
    ∃ u < 2 ^ n, sext n u = r := by
  obtain ⟨u, hcode⟩ := Int.eq_ofNat_of_zero_le (Int.emod_nonneg r (b := 2 ^ n) (by positivity))
  have hu : u < 2 ^ n := by
    zify
    rw [← hcode]
    exact Int.emod_lt_of_pos r (by positivity)
  exact ⟨u, hu, (sext_eq_iff hn hu r).mpr ⟨hr, hcode⟩⟩

/-! ### The sample decoder (R100) -/

theorem decodeSample_otherWidth {w : Int} (h16 : w ≠ 16) (h24 : w ≠ 24) (unit : Nat) (seq : List Nat) :
    decodeSample unit seq w = .raise .outOfRange := by
  rw [decodeSample_eq, if_pos ⟨h16, h24⟩]

section
variable {unit : Nat} {seq : List Nat} {w : Int}

theorem decodeSample_short (hw : w = 16 ∨ w = 24) (hlen : seq.length < w.toNat / unit) :
    decodeSample unit seq w = .raise .frameTooShort := by
  rw [decodeSample_eq, if_neg (by omega), if_pos hlen]

theorem decodeSample_long (hw : w = 16 ∨ w = 24) (hlen : w.toNat / unit < seq.length) :
    decodeSample unit seq w = .noMeaning .overlongFrame := by
  rw [decodeSample_eq, if_neg (by omega), if_neg (Nat.lt_asymm hlen), if_pos hlen]

/-- A sample is the number of a frame of admitted width and exact length, and nothing else is one. -/
theorem decodeSample_eq_ok_iff {r : Int} :
    decodeSample unit seq w = .ok r ↔
      (w = 16 ∨ w = 24) ∧ seq.length = w.toNat / unit ∧ sext w.toNat (assemble unit seq) = r := by
  by_cases hw : w = 16 ∨ w = 24
  · rcases Nat.lt_trichotomy seq.length (w.toNat / unit) with hlen | hlen | hlen
    · simp [decodeSample_short hw hlen, hlen.ne]
    · rw [decodeSample_eq, if_neg (by omega), if_neg hlen.not_lt, if_neg hlen.not_gt]
      simp [hw, hlen]
    · simp [decodeSample_long hw hlen, hlen.ne']
  · obtain ⟨h16, h24⟩ := not_or.mp hw
    simp [decodeSample_otherWidth h16 h24, hw]

end

theorem answer_ofSample_response {a : Answer Int} {s t : State} {z : Int} (h : answer (Answer.ofSample a) s = .next t)
    (ht : t.response = some (.ok (.int z))) : a = .ok z := by
  cases a with
  | ok y =>
    cases h
    cases ht
    rfl
  | raise k =>
    cases h
    cases ht
  | noMeaning q => cases h

/-! ### DSMP and DSMPB (R102, R103) -/

theorem exec_dsmp (bytes : List Byte) (w : Int) (s : State) :
    exec (.dsmp bytes w) s = answer (Answer.ofSample (decodeSample 8 (bytes.map BitVec.toNat) w)) s := rfl

theorem exec_dsmpb (bits : List Bool) (w : Int) (s : State) :
    exec (.dsmpb bits w) s = answer (Answer.ofSample (decodeSample 1 (bits.map Bool.toNat) w)) s := rfl

/-- DSMP of a frame of exact length (R102). -/
theorem exec_dsmp_frame {n : Nat} (hn : n = 16 ∨ n = 24) {bytes : List Byte} (hlen : 8 * bytes.length = n)
    (s : State) : exec (.dsmp bytes n) s =
      .next (s.withResponse (.ok (.int (sext n (assemble 8 (bytes.map BitVec.toNat)))))) := by
  rw [exec_dsmp, decodeSample_eq_ok_iff.mpr ⟨by omega, ?_, rfl⟩]
  · rfl
  · rw [List.length_map, Int.toNat_natCast]
    omega

/-- DSMPB of a frame of exact length (R103). -/
theorem exec_dsmpb_frame {n : Nat} (hn : n = 16 ∨ n = 24) {bits : List Bool} (hlen : bits.length = n) (s : State) :
    exec (.dsmpb bits n) s =
      .next (s.withResponse (.ok (.int (sext n (assemble 1 (bits.map Bool.toNat)))))) := by
  rw [exec_dsmpb, decodeSample_eq_ok_iff.mpr ⟨by omega, ?_, rfl⟩]
  · rfl
  · rw [List.length_map, Int.toNat_natCast, Nat.div_one, hlen]

/-- Settles O24: the checks of R100 in order, then the code of the frame, sign-extended. -/
theorem dsmpDecodesByteFrame : Obligations.DsmpDecodesByteFrame := by
  intro bytes w s
  refine ⟨fun h16 h24 => ?_, fun hshort => ?_, fun hlong => ?_, ?_, ?_⟩
  · rw [exec_dsmp, decodeSample_otherWidth h16 h24]
    rfl
  · rw [exec_dsmp, decodeSample_short (by omega) (by rw [List.length_map]; omega)]
    rfl
  · rw [exec_dsmp, decodeSample_long (by omega) (by rw [List.length_map]; omega)]
    rfl
  · rintro b0 b1 rfl rfl
    have hcode : assemble 8 ([b0, b1].map BitVec.toNat) = b0.toNat * 256 + b1.toNat := by simp [assemble]
    rw [← hcode, ← sext_eq_of_lt (n := 16) (by decide) (assemble_bytes_lt [b0, b1])]
    exact exec_dsmp_frame (.inl rfl) rfl s
  · rintro b0 b1 b2 rfl rfl
    have hcode : assemble 8 ([b0, b1, b2].map BitVec.toNat) = b0.toNat * 65536 + b1.toNat * 256 + b2.toNat := by
      simp [assemble]
      omega
    rw [← hcode, ← sext_eq_of_lt (n := 24) (by decide) (assemble_bytes_lt [b0, b1, b2])]
    exact exec_dsmp_frame (.inr rfl) rfl s

/-- Settles O25: the checks of R100 in order, then the weighted sum of the bits, sign-extended. -/
theorem dsmpbDecodesBitFrame : Obligations.DsmpbDecodesBitFrame := by
  intro bits w s
  refine ⟨fun h16 h24 => ?_, fun hw hshort => ?_, fun hw hlong => ?_, ?_⟩
  · rw [exec_dsmpb, decodeSample_otherWidth h16 h24]
    rfl
  · rw [exec_dsmpb, decodeSample_short hw (by rw [List.length_map, Nat.div_one]; omega)]
    rfl
  · rw [exec_dsmpb, decodeSample_long hw (by rw [List.length_map, Nat.div_one]; omega)]
    rfl
  · rintro n u hn rfl rfl rfl
    rw [← assemble_bits_eq_sum, ← sext_eq_of_lt (by omega) (assemble_bits_lt bits)]
    exact exec_dsmpb_frame hn rfl s

/-- Settles O26: sign extension by the top bit, of the code the bytes or the bits spell. -/
theorem signExtensionLaw : Obligations.SignExtensionLaw := by
  intro n c bytes bits s hn
  constructor
  · rintro hlen rfl
    rw [exec_dsmp_frame hn.symm hlen, assemble_bytes]
    rfl
  · rintro hlen rfl
    rw [exec_dsmpb_frame hn.symm hlen, assemble_bits]
    rfl

/-- Settles O27: bytes and codes correspond one to one, and so do codes and the signed range. -/
theorem frameDecodingIsBijection : Obligations.FrameDecodingIsBijection := by
  intro n s hn
  have hpos : 0 < 8 * n := by omega
  have hexec : ∀ bytes : List Byte, bytes.length = n → exec (.dsmp bytes (8 * n)) s =
      .next (s.withResponse (.ok (.int (sext (8 * n) (assemble 8 (bytes.map BitVec.toNat)))))) :=
    fun bytes hlen => exec_dsmp_frame (n := 8 * n) (by omega) (by rw [hlen]) s
  have hlt : ∀ bytes : List Byte, bytes.length = n → assemble 8 (bytes.map BitVec.toNat) < 2 ^ (8 * n) :=
    fun bytes hlen => hlen ▸ assemble_bytes_lt bytes
  constructor
  · intro bytes hlen
    obtain ⟨⟨hlow, hhigh⟩, hcode⟩ := (sext_eq_iff hpos (hlt bytes hlen) _).mp rfl
    exact ⟨_, hexec bytes hlen, hlow, hhigh, by rw [hcode, assemble_bytes]⟩
  · intro r hlow hhigh
    obtain ⟨u, hu, rfl⟩ := exists_code_of_signed hpos ⟨hlow, hhigh⟩
    obtain ⟨bytes, hlen, rfl⟩ := exists_bytes_of_code hu
    refine ⟨bytes, hexec bytes hlen, fun other hother => ?_⟩
    obtain ⟨-, hwidth, hsext⟩ := decodeSample_eq_ok_iff.mp (answer_ofSample_response hother rfl)
    have hlen' : other.length = n := by
      rw [List.length_map] at hwidth
      omega
    exact assemble_bytes_injective (hlen'.trans hlen.symm) (sext_injective hpos (hlt other hlen') hu hsext)

/-- Settles O28: the bits of a frame spell the code of its bytes; at any other width both raise OutOfRange. -/
theorem bitFormAgreesWithByteForm : Obligations.BitFormAgreesWithByteForm := by
  intro bytes w s hlen
  change exec (.dsmpb (bytes.flatMap bitsOfByte) w) s = _
  by_cases hw : w = 16 ∨ w = 24
  · obtain rfl : w = (8 * bytes.length : Nat) := by omega
    rw [exec_dsmp_frame (by omega) rfl, exec_dsmpb_frame (by omega) (by simp [List.length_flatMap, Nat.mul_comm]),
      assemble_flatMap_bitsOfByte]
  · obtain ⟨h16, h24⟩ := not_or.mp hw
    rw [exec_dsmp, exec_dsmpb, decodeSample_otherWidth h16 h24, decodeSample_otherWidth h16 h24]

/-- A decoded sample is a 24-bit number, whatever its width (R101). -/
theorem decodeSample_range {unit : Nat} (hunit : unit = 1 ∨ unit = 8) {seq : List Nat}
    (hseq : ∀ x ∈ seq, x < 2 ^ unit) {w z : Int} (h : decodeSample unit seq w = .ok z) :
    -(2 ^ 23) ≤ z ∧ z ≤ 2 ^ 23 - 1 := by
  obtain ⟨hw, hlen, hz⟩ := decodeSample_eq_ok_iff.mp h
  have hcode : assemble unit seq < 2 ^ w.toNat := by
    have hwidth : unit * (w.toNat / unit) = w.toNat := by
      rcases hunit with rfl | rfl <;> omega
    rw [← hwidth, ← hlen]
    exact assemble_lt unit seq hseq
  obtain ⟨⟨hlow, hhigh⟩, -⟩ := (sext_eq_iff (by omega) hcode z).mp hz
  rcases hw with rfl | rfl
  · exact ⟨le_trans (by decide) hlow, hhigh.trans (by decide)⟩
  · exact ⟨hlow, hhigh⟩

/-- Settles O37: what DSMP and DSMPB answer lies in the range AADD checks for. -/
theorem decodedSamplesAccumulate : Obligations.DecodedSamplesAccumulate := by
  intro i s t z hi h ht
  have hz : -(2 ^ 23) ≤ z ∧ z ≤ 2 ^ 23 - 1 := by
    rcases hi with ⟨bytes, w, rfl⟩ | ⟨bits, w, rfl⟩
    · exact decodeSample_range (.inr rfl) (List.forall_mem_map.mpr fun b _ => b.isLt) (answer_ofSample_response h ht)
    · exact decodeSample_range (.inl rfl) (List.forall_mem_map.mpr fun b _ => Bool.toNat_lt b)
        (answer_ofSample_response h ht)
  exact exec_aadd hz t

/-! ### EPAY and LPAY (R104, R105) -/

theorem checkBurst_inside {start count : Int} (h0 : 0 ≤ start) (hlow : 1 ≤ count) (hfit : start + count ≤ 4) :
    checkBurst start count = .ok () := by
  rw [checkBurst_eq, if_pos ⟨h0, hlow, hfit⟩]

theorem checkBurst_outside {start count : Int}
    (h : start < 0 ∨ 3 < start ∨ count < 1 ∨ 4 < count ∨ 4 < start + count) :
    checkBurst start count = .error .invalidAddress := by
  rw [checkBurst_eq, if_neg (by omega)]

section
variable {start count : Int} (h0 : 0 ≤ start) (hlow : 1 ≤ count) (hfit : start + count ≤ 4) (s : State)
include h0 hlow hfit

theorem exec_epay_inside {l : List Byte} (hl : memRead s.block.regs start.toNat count.toNat = some l) :
    exec (.epay start count) s = .next (s.withResponse (.ok (.bytes l))) := by
  rw [exec, execEpay, checkBurst_inside h0 hlow hfit, hl]
  rfl

/-- LPAY of a payload of `count` bytes is a write of the registers. -/
theorem exec_lpay_inside {bytes : List Byte} (hlen : bytes.length = count) {r : Regs}
    (hr : memWrite s.block.regs start.toNat bytes = some r) :
    exec (.lpay start count bytes) s = .next ((s.withBlock (s.block.withRegs r)).withResponse (.ok .none)) := by
  rw [exec, execLpay, checkBurst_inside h0 hlow hfit]
  dsimp only
  rw [if_neg (by omega), if_neg (by omega), hr]
  rfl

theorem exec_lpay_short {bytes : List Byte} (hlen : bytes.length < count) :
    exec (.lpay start count bytes) s = .next (s.withResponse (.err .frameTooShort)) := by
  rw [exec, execLpay, checkBurst_inside h0 hlow hfit]
  dsimp only
  rw [if_pos (by omega)]
  rfl

theorem exec_lpay_long {bytes : List Byte} (hlen : count < bytes.length) :
    exec (.lpay start count bytes) s = .refused .overlongPayload := by
  rw [exec, execLpay, checkBurst_inside h0 hlow hfit]
  dsimp only
  rw [if_neg (by omega), if_pos (by omega)]

end

/-- Settles O29: past the address check, EPAY reads the registers of its run. -/
theorem epayReturnsRegisters : Obligations.EpayReturnsRegisters := by
  intro start count s
  refine ⟨fun h0 hlow hfit => ?_, fun hout => ?_⟩
  · obtain ⟨l, hl, hlen, hget⟩ := memRead_inside s.block.regs count.toNat start.toNat (by omega)
    exact ⟨l, exec_epay_inside h0 hlow hfit s hl, by omega, fun k a hk ha => hget k a (by omega) (by omega)⟩
  · rw [exec, execEpay, checkBurst_outside hout]
    rfl

/-- Settles O30: the address check, the length check, and past both a write of the run. -/
theorem lpayLoadsRegisters : Obligations.LpayLoadsRegisters := by
  intro start count bytes s
  refine ⟨fun h0 hlow hfit hlen => ?_, fun hout => ?_, fun h0 hlow hfit => exec_lpay_short h0 hlow hfit s,
    fun h0 hlow hfit => exec_lpay_long h0 hlow hfit s⟩
  · obtain ⟨r, hr, hin, hout⟩ := memWrite_inside bytes s.block.regs start.toNat (by omega)
    exact ⟨r, exec_lpay_inside h0 hlow hfit s hlen hr, fun k a hk ha => hin k a (by omega) (by omega),
      fun a ha => hout a (by omega)⟩
  · rw [exec, execLpay, checkBurst_outside hout]
    rfl

/-- The bytes just written read back (R37). -/
theorem memRead_of_memWrite {r r' : Regs} {addr : Nat} {l : List Byte} (hfit : addr + l.length ≤ 4)
    (h : memWrite r addr l = some r') : memRead r' addr l.length = some l := by
  obtain ⟨w, hw, hwritten, -⟩ := memWrite_inside l r addr hfit
  obtain rfl : w = r' := Option.some.inj (hw.symm.trans h)
  obtain ⟨m, hm, hlen, hread⟩ := memRead_inside w l.length addr hfit
  have hml : m = l := List.ext_getElem? fun k => by
    by_cases hk : k < l.length
    · rw [hread k ⟨addr + k, by omega⟩ hk rfl, hwritten k ⟨addr + k, by omega⟩ hk rfl]
    · rw [List.getElem?_eq_none (by omega), List.getElem?_eq_none (by omega)]
  rw [hm, hml]

/-- Settles O31: LPAY answers Ok, and EPAY reads the registers it wrote. -/
theorem lpayThenEpayReturnsPayload : Obligations.LpayThenEpayReturnsPayload := by
  intro start count bytes s h0 hlow hfit hlen
  obtain ⟨r, hr, -, -⟩ := memWrite_inside bytes s.block.regs start.toNat (by omega)
  have hread : memRead r start.toNat count.toNat = some bytes := by
    rw [show count.toNat = bytes.length by omega]
    exact memRead_of_memWrite (by omega) hr
  exact ⟨_, (runUntilErr_cons_ok _ (exec_lpay_inside h0 hlow hfit s hlen hr) rfl).trans
    (runUntilErr_singleton (exec_epay_inside h0 hlow hfit _ hread)), rfl⟩

end Sys2Proof.Machine
end

section
/-! PROOFS of the family `43_averaging.md`: what ACLR, AADD and AMEAN do, and that the order of the AADDs does not
matter, because two neighbouring ones may be exchanged. -/

namespace Sys2Proof.Machine

/-! ### The order of the AADDs (R116) -/

theorem Block.accumulate_comm (b : Block) (x y : Int) :
    (b.accumulate x).accumulate y = (b.accumulate y).accumulate x := by
  simp [accumulate, Int.add_right_comm]

theorem runUntilErr_aadd_cons {z : Int} (hz : -(2 ^ 23) ≤ z ∧ z ≤ 2 ^ 23 - 1) (l : List Instr) (s : State) :
    runUntilErr (.aadd z :: l) s =
      runUntilErr l ((s.withBlock (s.block.accumulate z)).withResponse (.ok .none)) :=
  runUntilErr_cons_ok l (exec_aadd hz s) rfl

theorem runUntilErr_aadd_swap {x y : Int} (hx : -(2 ^ 23) ≤ x ∧ x ≤ 2 ^ 23 - 1)
    (hy : -(2 ^ 23) ≤ y ∧ y ≤ 2 ^ 23 - 1) (l : List Instr) (s : State) :
    runUntilErr (.aadd x :: .aadd y :: l) s = runUntilErr (.aadd y :: .aadd x :: l) s := by
  simp only [runUntilErr_aadd_cons hx, runUntilErr_aadd_cons hy, State.withResponse_block, State.withBlock_block,
    Block.accumulate_comm s.block x y]
  rfl

theorem runUntilErr_aadds_perm {l m : List Int} (h : l.Perm m) (hl : ∀ z ∈ l, -(2 ^ 23) ≤ z ∧ z ≤ 2 ^ 23 - 1)
    (s : State) : runUntilErr (l.map .aadd) s = runUntilErr (m.map .aadd) s := by
  induction h generalizing s with
  | nil => rfl
  | cons z _ ih =>
    obtain ⟨hz, hl⟩ := List.forall_mem_cons.mp hl
    simp only [List.map_cons, runUntilErr_aadd_cons hz, ih hl]
  | swap x y l => exact runUntilErr_aadd_swap (hl y (.head _)) (hl x (.tail y (.head l))) (l.map .aadd) s
  | trans hlk _ ih ih' => exact (ih hl s).trans (ih' (fun z hz => hl z (hlk.mem_iff.mpr hz)) s)

/-- Settles O36: the run over one list ends in a state, and the run over any permutation of it is the same run. -/
theorem aaddOrderIrrelevant : Obligations.AaddOrderIrrelevant := by
  intro l m s h hl
  obtain ⟨r, hr⟩ := runUntilErr_aadds [] l hl s
  rw [List.append_nil, runUntilErr_nil] at hr
  exact ⟨_, hr, (runUntilErr_aadds_perm h hl s).symm.trans hr⟩

/-! ### ACLR, AADD and AMEAN (R115 to R117) -/

/-- Settles O32, by what ACLR does to the block. -/
theorem aclrEmptiesAccumulator : Obligations.AclrEmptiesAccumulator := fun _ => rfl

/-- D21: a sample of more than 24 bits is not accepted. -/
theorem exec_aadd_outside {z : Int} (hz : z < -(2 ^ 23) ∨ 2 ^ 23 - 1 < z) (s : State) :
    exec (.aadd z) s = .next (s.withResponse (.err .outOfRange)) := by
  have hrange : sampleInRange z = false := by
    rw [← Bool.not_eq_true, sampleInRange_iff]
    omega
  simp [exec, execAadd, hrange]

/-- Settles O33: inside the range of D21 AADD accumulates, outside it answers OutOfRange. -/
theorem aaddAccumulatesSample : Obligations.AaddAccumulatesSample :=
  fun _ s => ⟨fun hlow hhigh => exec_aadd ⟨hlow, hhigh⟩ s, fun hz => exec_aadd_outside hz s⟩

/-- Settles O34: the two cases of the count in what AMEAN answers. -/
theorem ameanDividesOnce : Obligations.AmeanDividesOnce :=
  fun s => ⟨fun hn => by rw [exec_amean, if_neg hn], fun hn => by rw [exec_amean, if_pos hn]⟩

end Sys2Proof.Machine
end

section
/-! PROOFS of the family `44_calibration.md`: the guard of the two conversions decides their errors and the line
through the two calibration points their values; then the voltage, which has checks of its own. -/

namespace Sys2Proof.Machine

/-! ### What fails, and what of it depends on rounding (R125, R129, R130) -/

theorem Block.mean_eq_error_iff (rnd : Num → Num) (b : Block) (k : ErrorKind) :
    b.mean rnd = .error k ↔ b.accN = 0 ∧ .outOfRange = k := by
  unfold Block.mean
  by_cases hn : b.accN = 0 <;> simp [hn]

theorem Block.tareOf_eq_error_iff (rnd : Num → Num) (b : Block) (raw : Code) (k : ErrorKind) :
    b.tareOf rnd raw = .error k ↔ b.conversionGuard = .error k := by
  unfold Block.tareOf
  cases b.conversionGuard <;> simp

theorem Block.toMass_eq_error_iff (rnd : Num → Num) (b : Block) (raw : Code) (k : ErrorKind) :
    b.toMass rnd raw = .error k ↔ b.conversionGuard = .error k := by
  unfold Block.toMass
  cases b.conversionGuard <;> simp

theorem toVoltage_eq_error_iff (rnd : Num → Num) (raw : Code) (bits : Int) (vref : Num) (gain : Int) (k : ErrorKind) :
    toVoltage rnd raw bits vref gain = .error k ↔
      (admittedWidth bits = false ∨ admittedGain gain = false) ∧ .outOfRange = k := by
  unfold toVoltage
  cases admittedWidth bits <;> cases admittedGain gain <;> simp

/-- Settles O43: each of the four fails by a condition that names no rounding function. -/
theorem errorsIndependentOfRounding : Obligations.ErrorsIndependentOfRounding := fun rnd rnd' b k =>
  ⟨(b.mean_eq_error_iff rnd k).trans (b.mean_eq_error_iff rnd' k).symm,
    fun raw => (b.tareOf_eq_error_iff rnd raw k).trans (b.tareOf_eq_error_iff rnd' raw k).symm,
    fun raw => (b.toMass_eq_error_iff rnd raw k).trans (b.toMass_eq_error_iff rnd' raw k).symm,
    fun raw bits vref gain => (toVoltage_eq_error_iff rnd raw bits vref gain k).trans
      (toVoltage_eq_error_iff rnd' raw bits vref gain k).symm⟩

/-! ### CTARE and TMASS (R133, R134) -/

/-- R129: before both points are recorded, each conversion ends at the completeness check. -/
theorem exec_conversion_of_incomplete {s : State} (h : s.block.zeroValid = false ∨ s.block.spanValid = false)
    (raw : Code) :
    exec (.tmass raw) s = .next { s with response := some (.err .calibrationIncomplete) } ∧
      exec (.ctare raw) s = .next { s with response := some (.err .calibrationIncomplete) } := by
  have hguard : s.block.conversionGuard = .error .calibrationIncomplete := by
    rcases h with h | h <;> simp [Block.conversionGuard, Block.calibrationComplete, h]
  simp only [exec, execTmass, execCtare, Block.toMass, Block.tareOf, hguard]
  exact ⟨rfl, rfl⟩

section
variable {s : State} (hz : s.block.zeroValid = true) (hs : s.block.spanValid = true)
  (hne : s.block.spanCode ≠ s.block.zeroCode)
include hz hs hne

theorem conversionGuard_of_complete : s.block.conversionGuard = .ok () := by
  simp [Block.conversionGuard, Block.calibrationComplete, hz, hs, hne]

theorem exec_tmass_of_complete (raw : Code) :
    exec (.tmass raw) s = .next { s with
      response := some (.ok (.num (subR Config.rnd (s.block.grossMass Config.rnd raw) s.block.tareKg))) } := by
  simp only [exec, execTmass, Block.toMass, conversionGuard_of_complete hz hs hne]
  rfl

theorem exec_ctare_of_complete (raw : Code) :
    exec (.ctare raw) s = .next
      ((s.withBlock (s.block.withTare (s.block.grossMass Config.rnd raw))).withResponse (.ok .none)) := by
  simp only [exec, execCtare, Block.tareOf, conversionGuard_of_complete hz hs hne]
  rfl

end

/-- Settles O41: past the guard TMASS takes the tare off the line's value at the code. -/
theorem tmassConvertsToMass : Obligations.TmassConvertsToMass := by
  refine fun raw s => ⟨fun slope intercept hz hs hne hslope hintercept => ?_,
    fun h => (exec_conversion_of_incomplete h raw).1, fun hz hs hc => (exec_conversion_of_equal_codes hz hs hc raw).1⟩
  subst hslope hintercept
  exact exec_tmass_of_complete hz hs hne raw

/-- Settles O40: past the guard CTARE stores the line's value at the code. -/
theorem ctareStoresUntaredMass : Obligations.CtareStoresUntaredMass := by
  refine fun raw s => ⟨fun slope intercept hz hs hne hslope hintercept => ?_,
    fun h => (exec_conversion_of_incomplete h raw).2, fun hz hs hc => (exec_conversion_of_equal_codes hz hs hc raw).2⟩
  subst hslope hintercept
  exact exec_ctare_of_complete hz hs hne raw

@[simp] theorem Block.grossMass_withTare (rnd : Num → Num) (b : Block) (q : Num) (raw : Code) :
    (b.withTare q).grossMass rnd raw = b.grossMass rnd raw := rfl

/-! ### The line in exact arithmetic (D11) -/

/-- Without rounding, R127 and R128 are the line through `(zeroCode, 0)` and `(spanCode, calMassKg)`. -/
theorem Block.grossMass_exact {rnd : Num → Num} (hrnd : ∀ x, rnd x = x) (b : Block) (raw : Code) :
    b.grossMass rnd raw = b.calMassKg / (b.spanCode - b.zeroCode) * (raw - b.zeroCode) := by
  simp only [grossMass, intercept, slope, addR, subR, mulR, divR, hrnd]
  ring

theorem exec_tmass_exact (hrnd : ∀ x, Config.rnd x = x) {s : State} (hz : s.block.zeroValid = true)
    (hs : s.block.spanValid = true) (hne : s.block.spanCode ≠ s.block.zeroCode) (raw : Code) :
    exec (.tmass raw) s = .next { s with response := some (.ok (.num
      (s.block.calMassKg / (s.block.spanCode - s.block.zeroCode) * (raw - s.block.zeroCode) - s.block.tareKg))) } := by
  rw [exec_tmass_of_complete hz hs hne, subR, hrnd, Block.grossMass_exact hrnd]

/-- Settles O44: the line's values at its two points, and its equation with the division cleared. -/
theorem massIsTwoPointLine : Obligations.MassIsTwoPointLine := by
  intro hrnd s hz hs hne
  have hd : s.block.spanCode - s.block.zeroCode ≠ 0 := sub_ne_zero.mpr hne
  have hline := exec_tmass_exact hrnd hz hs hne
  refine ⟨?_, ?_, fun raw q hq => ?_⟩
  · rw [hline, sub_self, mul_zero]
  · rw [hline, div_mul_cancel₀ _ hd]
  · rw [hline] at hq
    obtain rfl : s.block.calMassKg / (s.block.spanCode - s.block.zeroCode) * (raw - s.block.zeroCode) -
      s.block.tareKg = q := by simpa using hq
    rw [sub_add_cancel, mul_right_comm, div_mul_cancel₀ _ hd]

/-- Settles O45: the line does not depend on the tare, so TMASS takes off just what CTARE stored. -/
theorem tareZeroesItsCode : Obligations.TareZeroesItsCode := by
  intro hrnd raw s hz hs hne
  refine ⟨_, (runUntilErr_cons_ok _ (exec_ctare_of_complete hz hs hne raw) rfl).trans
    (runUntilErr_singleton (exec_tmass_of_complete (by simpa using hz) (by simpa using hs) (by simpa using hne) raw)),
    ?_⟩
  simp [subR, hrnd]

/-! ### RZERO and RSPAN (R131, R132) -/

/-- Settles O38, by what RZERO does to the block. -/
theorem rzeroRecordsZero : Obligations.RzeroRecordsZero := fun _ _ => rfl

/-- R126: the unit scale table, row by row. -/
theorem scale_of_mem_table {u : MassUnit} {scale : Rat}
    (h : (u, scale) ∈ [(MassUnit.kg, (1 : Rat)), (.g, 1 / 1000), (.mg, 1 / 1000000), (.ug, 1 / 1000000000)]) :
    scale = Config.scale u := by
  cases u <;> simpa [Config.scale] using h

/-- Settles O39: RSPAN records the mass in kilograms, by the row of its unit. -/
theorem rspanRecordsSpan : Obligations.RspanRecordsSpan := by
  intro raw m s u scale h
  rw [scale_of_mem_table h]
  rfl

/-! ### TVOLT (R135) -/

theorem admittedGain_iff (gain : Int) : admittedGain gain = true ↔ gain ∈ [(1 : Int), 2, 4, 8, 16, 32, 64, 128] :=
  decide_eq_true_iff

/-- The two admitted widths, each with half of its code range. -/
theorem admittedWidth_and_halfRange_of_mem_table {bits : Int} {scale : Rat}
    (h : (bits, scale) ∈ [((16 : Int), (32768 : Rat)), (24, 8388608)]) :
    admittedWidth bits = true ∧ ((2 ^ (bits.toNat - 1) : Nat) : Rat) = scale := by
  obtain ⟨rfl, rfl⟩ | ⟨rfl, rfl⟩ : (bits = 16 ∧ scale = 32768) ∨ (bits = 24 ∧ scale = 8388608) := by simpa using h
  · exact ⟨(admittedWidth_iff 16).mpr (.inl rfl), by norm_num [Int.toNat]⟩
  · exact ⟨(admittedWidth_iff 24).mpr (.inr rfl), by norm_num [Int.toNat]⟩

theorem toVoltage_admitted (rnd : Num → Num) (raw : Code) {bits : Int} (vref : Num) {gain : Int}
    (hw : admittedWidth bits = true) (hg : admittedGain gain = true) :
    toVoltage rnd raw bits vref gain =
      .ok (mulR rnd (divR rnd raw ((2 ^ (bits.toNat - 1) : Nat) : Num)) (divR rnd vref (gain : Num))) := by
  simp [toVoltage, hw, hg]

/-- Settles O42: past both checks TVOLT answers the formula, with half the code range of either width. -/
theorem tvoltConvertsToVoltage : Obligations.TvoltConvertsToVoltage := by
  refine fun raw vref bits gain s => ⟨fun scale hscale hgain => ?_, fun hout => ?_⟩
  · obtain ⟨hw, hhalf⟩ := admittedWidth_and_halfRange_of_mem_table hscale
    rw [exec, execTvolt, toVoltage_admitted _ _ _ hw ((admittedGain_iff gain).mpr hgain), hhalf]
    rfl
  · have herr : toVoltage Config.rnd raw bits vref gain = .error .outOfRange := by
      rw [toVoltage_eq_error_iff, ← Bool.not_eq_true, ← Bool.not_eq_true, admittedWidth_iff, admittedGain_iff, not_or]
      exact ⟨hout, rfl⟩
    rw [exec, execTvolt, herr]
    rfl

end Sys2Proof.Machine
end

section
/-! PROOFS of the family `60_exceptions.md`: what an error response says about the operation that ended with it, and
that no host operation reads the response of the one before. -/

namespace Sys2Proof.Machine

/-! ### The error response (R151, R161) -/

/-- A host operation that ends with an error has raised a kind of its row of R151, and answering is all it did. -/
theorem exec_host_error {i : Instr} {s t : State} {k : ErrorKind} (hi : i.isWire = false) (h : exec i s = .next t)
    (hk : t.response = some (.err k)) : k ∈ mayRaise i ∧ t = s.withResponse (.err k) := by
  rcases exec_host_cases i s hi with ⟨k', hmem, he⟩ | ⟨-, he | he⟩ | ⟨r, b, he, -⟩ <;> rw [he] at h <;> cases h
  · cases hk
    exact ⟨hmem, rfl⟩
  · cases hk

/-- Settles O48: a wire command leaves the block and the host's list alone in any case, and a host operation that
raised an error only answered. -/
theorem errorChangesNothing : Obligations.ErrorChangesNothing := by
  intro i s t k h hk
  cases hi : i.isWire with
  | true =>
    obtain ⟨hpend, hblock | ⟨hhost, -⟩⟩ := exec_next_cases h
    · exact ⟨hblock, hpend, nofun⟩
    · simp [hi] at hhost
  | false =>
    obtain ⟨-, rfl⟩ := exec_host_error hi h hk
    exact ⟨rfl, rfl, fun _ => rfl⟩

/-- Settles O50: what is raised is in the operation's row, and no row holds a kind of the Acquisition Engine. -/
theorem errorsOnlyAsListed : Obligations.ErrorsOnlyAsListed := by
  refine ⟨fun i s t k hi h hk => (exec_host_error hi h hk).1, fun i => ?_, rfl, fun _ => rfl⟩
  cases i <;> simp [mayRaise]

/-! ### The request after an error (R162) -/

/-- An answer takes the place of the response that stands. -/
theorem answer_withResponse (a : Answer Result) (s : State) (r : Response) :
    answer a (s.withResponse r) = answer a s := by
  cases a <;> rfl

/-- No host operation reads the response that stands: its checks and its result come from its operands and the block,
and its own response takes the other's place. -/
theorem exec_host_withResponse {j : Instr} (hj : j.isWire = false) (s : State) (r : Response) :
    exec j (s.withResponse r) = exec j s := by
  cases j with
  | cmdReset | cmdShutdown | cmdStart | cmdReadData | cmdReadReg | cmdWriteReg => simp [Instr.isWire] at hj
  | encf | bcmd | dsmp | dsmpb | tvolt | amean | tmass => exact answer_withResponse _ s r
  | decf | getf | aclr | rzero | rspan => rfl
  | epay start count => simp only [exec, execEpay_eq_answer, answer_withResponse, State.withResponse_block]
  | setf f v =>
    simp only [exec, execSetf, State.withResponse_block]
    split <;> rfl
  | lpay start count bytes =>
    simp only [exec, execLpay, State.withResponse_block]
    split
    · rfl
    · split
      · rfl
      · split
        · rfl
        · split <;> rfl
  | aadd smp =>
    simp only [exec, execAadd, State.withResponse_block]
    split <;> rfl
  | ctare raw =>
    simp only [exec, execCtare, State.withResponse_block]
    split <;> rfl

/-- Settles O49: the failed operation left only its response, which the next one does not read. -/
theorem afterErrorAsIfNotIssued : Obligations.AfterErrorAsIfNotIssued := by
  intro i j s t k hi hj h hk
  obtain ⟨-, rfl⟩ := exec_host_error hi h hk
  exact exec_host_withResponse hj s (.err k)

end Sys2Proof.Machine
end

section
/-! PROOFS of the family `70_reset_and_hazards.md`: what the reset event leaves, which requests end without a response,
and why averaging codes and averaging masses give one result. -/

namespace Sys2Proof.Machine

/-! ### The reset event (R175) -/

/-- Settles O7: the event leaves the block of the reset state, and beside the block only the host's list is shorter. -/
theorem resetEventResetsBlock : Obligations.ResetEventResetsBlock := by
  intro s rest hp
  obtain ⟨hregs, hzero, hspan, htare, hsum, hn, -⟩ := resetStateValues
  exact ⟨_, step_of_resetEvent hp, fun a => (hregs a).1, hzero, hspan, htare, hsum, hn, rfl, rfl, rfl⟩

/-! ### Requests that end without a response (R188, U4) -/

/-- An over-long input passes every check and is then refused. -/
theorem exec_overlong_refused {i : Instr} (h : Overlong i) (s : State) :
    exec i s = .refused .overlongFrame ∨ exec i s = .refused .overlongPayload := by
  cases i with
  | dsmp bytes w =>
    obtain ⟨-, -, hlong, -⟩ := dsmpDecodesByteFrame bytes w s
    exact .inl (hlong h)
  | dsmpb bits w =>
    left
    obtain ⟨-, -, hlong, -⟩ := dsmpbDecodesBitFrame bits w s
    rcases h with ⟨rfl, hlen⟩ | ⟨rfl, hlen⟩
    · exact hlong (.inl rfl) (by omega)
    · exact hlong (.inr rfl) (by omega)
  | lpay start count bytes =>
    obtain ⟨h0, hlow, hfit, hlen⟩ := h
    exact .inr (exec_lpay_long h0 hlow hfit s hlen)
  | cmdReset | cmdShutdown | cmdStart | cmdReadData | cmdReadReg | cmdWriteReg | encf | decf | setf | getf | bcmd
  | epay | aclr | aadd | amean | rzero | rspan | ctare | tmass | tvolt => exact h.elim

/-- Settles O52: a host operation that neither responds nor raises an error is refused for an over-long input, and every
over-long input is refused. -/
theorem everyRequestAnsweredUnlessOverlong : Obligations.EveryRequestAnsweredUnlessOverlong := by
  refine fun i s hi => ⟨fun hfits => ?_, fun hlong => exec_overlong_refused hlong s⟩
  rcases exec_host_cases i s hi with ⟨k, -, he⟩ | ⟨hlong, -⟩ | ⟨r, b, he, -⟩
  · exact ⟨_, .err k, he, rfl⟩
  · exact absurd hlong hfits
  · exact ⟨_, .ok r, he, rfl⟩

/-! ### One averaging domain (R185) -/

/-- What TMASS answers in exact arithmetic, the tare taken off (`exec_tmass_exact`). -/
def Block.exactMass (b : Block) (raw : Code) : Num :=
  b.calMassKg / (b.spanCode - b.zeroCode) * (raw - b.zeroCode) - b.tareKg

/-- An affine function commutes with the mean of a non-empty list. -/
theorem mean_map_affine (a c d : Rat) {l : List Rat} (hl : l ≠ []) :
    (l.map fun x => a * (x - c) - d).sum / l.length = a * (l.sum / l.length - c) - d := by
  have hlen : (l.length : Rat) ≠ 0 := by simpa using hl
  have hsum : (l.map fun x => a * (x - c) - d).sum = a * (l.sum - l.length * c) - l.length * d := by
    simp [sub_eq_add_neg, List.sum_map_add, List.sum_map_mul_left]
  rw [hsum]
  field_simp

/-- Settles O46: the mass is an affine function of the code. -/
theorem meanOfMassesIsMassOfMean : Obligations.MeanOfMassesIsMassOfMean :=
  fun hrnd _ s hl hz hs hne =>
    ⟨s.block.exactMass, exec_tmass_exact hrnd hz hs hne, mean_map_affine _ _ _ hl⟩

end Sys2Proof.Machine
end
